-- ==== Sys2Proof/Word.lean ====
section
/-! DEFINITION. The plain types of the GHE parameter engine: the 32-bit bus word, the byte of a bus lane,
and the number of a general register (`spec/30_encoding.md` R71, `spec/10_state.md` R20). -/

namespace Sys2Proof

/-- The 32 bits of one bus access, of a command word and of a control register (R25, R56, R70). -/
abbrev Word := BitVec 32

/-- One byte lane of the platform's bus (R55). -/
abbrev Byte := BitVec 8

/-- The number of a general register, x0 to x15 (R7, R20). Every value is legal (R71). -/
abbrev Reg := Fin 16

end Sys2Proof
end

