-- ==== Sys2Proof/Syntax.lean ====
section
/-! DEFINITION. The nine commands of the engine, one constructor per row of `spec/opcode_table.json`
(`spec/30_encoding.md` R72, R73). Operands stand in the assembler's order: destinations `rd`, `rk`, `rn`,
then sources `rs1`, `rs2`, then the immediate (R77). A register operand is a `Reg` and the immediate a
20-bit vector, so a term with a field out of range cannot be written. -/

namespace Sys2Proof

inductive Instr where
  /-- `LI rd, imm20` (R150). -/
  | li (rd : Reg) (imm20 : BitVec 20)
  /-- `BITLEN rd, rs1` (R120). -/
  | bitlen (rd rs1 : Reg)
  /-- `MONT rd, rk, rs1` (R122). -/
  | mont (rd rk rs1 : Reg)
  /-- `BARRETT rd, rk, rs1` (R111). -/
  | barrett (rd rk rs1 : Reg)
  /-- `MODINV rd, rs1, rs2` (R130). -/
  | modinv (rd rs1 rs2 : Reg)
  /-- `MODDEC rd, rs1, rs2` (R131). -/
  | moddec (rd rs1 rs2 : Reg)
  /-- `PHI rd, rs1, rs2` (R151). -/
  | phi (rd rs1 rs2 : Reg)
  /-- `FERMAT rd, rk, rs1, rs2` (R94). -/
  | fermat (rd rk rs1 rs2 : Reg)
  /-- `PRIMEGEN rd, rk, rn, rs1` (R95). -/
  | primegen (rd rk rn rs1 : Reg)
  deriving DecidableEq, Repr

end Sys2Proof
end

