-- ==== Sys2Proof/WellFormed.lean ====
section
/-! DEFINITION. When a command word is well formed, said by its fields (`spec/30_encoding.md` R71, R73, R75):
the opcode is one of the nine, and the `zero` field and every register field the command does not use are 0.
A term of `Instr` is well formed by its type; the checks are about the seven fields of a word and, for the
pseudo-instruction CRT, about its ten registers (R78, R132). -/

namespace Sys2Proof

/-- The fields of a command word, read as an R-format word (R71). -/
structure CommandFields where
  opcode : Nat
  rd : Nat
  rs1 : Nat
  rs2 : Nat
  rk : Nat
  rn : Nat
  zero : Nat
  deriving DecidableEq, Repr

/-- The fields that must be 0 for the opcode are 0, and the opcode is defined (R72, R73, R75).
For LI every pattern of the other bits is legal: bits 31:12 are its immediate. -/
def CommandFields.wellFormed (f : CommandFields) : Bool :=
  match f.opcode with
  | 0x01 => true
  | 0x10 => f.rs2 == 0 && f.rk == 0 && f.rn == 0 && f.zero == 0
  | 0x11 => f.rs2 == 0 && f.rn == 0 && f.zero == 0
  | 0x12 => f.rs2 == 0 && f.rn == 0 && f.zero == 0
  | 0x13 => f.rk == 0 && f.rn == 0 && f.zero == 0
  | 0x14 => f.rk == 0 && f.rn == 0 && f.zero == 0
  | 0x15 => f.rk == 0 && f.rn == 0 && f.zero == 0
  | 0x16 => f.rn == 0 && f.zero == 0
  | 0x17 => f.rs2 == 0 && f.zero == 0
  | _ => false

/-- The ten register operands of `CRT rdp, rdq, rqi, rfp, rsp, rfq, rsq, rp, rq, rdd` (R78, R132). -/
structure CrtOperands where
  rdp : Reg
  rdq : Reg
  rqi : Reg
  rfp : Reg
  rsp : Reg
  rfq : Reg
  rsq : Reg
  rp : Reg
  rq : Reg
  rdd : Reg
  deriving DecidableEq, Repr

/-- The registers of a CRT, destinations first. -/
def CrtOperands.registers (o : CrtOperands) : List Reg :=
  [o.rdp, o.rdq, o.rqi, o.rfp, o.rsp, o.rfq, o.rsq, o.rp, o.rq, o.rdd]

/-- "The ten register operands must be pairwise different" (R132). -/
def CrtOperands.wellFormed (o : CrtOperands) : Bool :=
  decide o.registers.Nodup

end Sys2Proof
end

