-- ==== Sys2Proof/Decode.lean ====
section
/-! DEFINITION. The decoder of command words, total on all 2^32 words, and the encoder
(`spec/30_encoding.md` R70 to R79; `spec/opcode_table.json`). A word selects a command exactly when
`w AND mask = match` for one of the nine rows of R73; a word that no row matches is illegal and is
refused by name. -/

namespace Sys2Proof

/-- Why a word is illegal (R75): its opcode is reserved, or its opcode is defined and a field that must be 0
is not. Both raise the same fault, IllegalCommand (R178). -/
inductive DecodeError where
  | reservedOpcode
  | nonZeroField
  deriving DecidableEq, Repr

/-- `opcode = w[7:0]` (R79). -/
def fieldOpcode (w : Word) : BitVec 8 := w.extractLsb' 0 8

/-- The register field whose lowest bit is `lo`, as a register number (R71). -/
def fieldReg (lo : Nat) (w : Word) : Reg := (w.extractLsb' lo 4).toFin

/-- `rd = w[11:8]` (R79). -/
def fieldRd (w : Word) : Reg := fieldReg 8 w

/-- `rs1 = w[15:12]` (R79). -/
def fieldRs1 (w : Word) : Reg := fieldReg 12 w

/-- `rs2 = w[19:16]` (R79). -/
def fieldRs2 (w : Word) : Reg := fieldReg 16 w

/-- `rk = w[23:20]` (R79). -/
def fieldRk (w : Word) : Reg := fieldReg 20 w

/-- `rn = w[27:24]` (R79). -/
def fieldRn (w : Word) : Reg := fieldReg 24 w

/-- `imm20 = w[31:12]` (R74, R79). -/
def fieldImm20 (w : Word) : BitVec 20 := w.extractLsb' 12 20

/-- The seven fields of a word, for the well-formedness check (R71). -/
def fieldsOf (w : Word) : CommandFields where
  opcode := (fieldOpcode w).toNat
  rd := (fieldRd w).val
  rs1 := (fieldRs1 w).val
  rs2 := (fieldRs2 w).val
  rk := (fieldRk w).val
  rn := (fieldRn w).val
  zero := (w.extractLsb' 28 4).toNat

/-- One row of the table of R73; `pattern` is the column "match". -/
structure OpcodeRow where
  mnemonic : String
  mask : Word
  pattern : Word
  build : Word → Instr

/-- `w AND mask = match` (R73). -/
def OpcodeRow.selects (r : OpcodeRow) (w : Word) : Bool :=
  w &&& r.mask == r.pattern

/-- The nine rows of R73, in its order. -/
def opcodeRows : List OpcodeRow :=
  [ ⟨"LI", 0x000000FF, 0x00000001, fun w => .li (fieldRd w) (fieldImm20 w)⟩,
    ⟨"BITLEN", 0xFFFF00FF, 0x00000010, fun w => .bitlen (fieldRd w) (fieldRs1 w)⟩,
    ⟨"MONT", 0xFF0F00FF, 0x00000011, fun w => .mont (fieldRd w) (fieldRk w) (fieldRs1 w)⟩,
    ⟨"BARRETT", 0xFF0F00FF, 0x00000012, fun w => .barrett (fieldRd w) (fieldRk w) (fieldRs1 w)⟩,
    ⟨"MODINV", 0xFFF000FF, 0x00000013, fun w => .modinv (fieldRd w) (fieldRs1 w) (fieldRs2 w)⟩,
    ⟨"MODDEC", 0xFFF000FF, 0x00000014, fun w => .moddec (fieldRd w) (fieldRs1 w) (fieldRs2 w)⟩,
    ⟨"PHI", 0xFFF000FF, 0x00000015, fun w => .phi (fieldRd w) (fieldRs1 w) (fieldRs2 w)⟩,
    ⟨"FERMAT", 0xFF0000FF, 0x00000016,
      fun w => .fermat (fieldRd w) (fieldRk w) (fieldRs1 w) (fieldRs2 w)⟩,
    ⟨"PRIMEGEN", 0xF00F00FF, 0x00000017,
      fun w => .primegen (fieldRd w) (fieldRk w) (fieldRn w) (fieldRs1 w)⟩ ]

/-- The opcode of `w` is one of the nine defined ones (R72). -/
def opcodeDefined (w : Word) : Bool :=
  opcodeRows.any fun r => fieldOpcode r.pattern == fieldOpcode w

/-- `Decode(w)` (R79): the command of the row that matches, or the reason the word is illegal (R75). -/
def decode (w : Word) : Except DecodeError Instr :=
  match opcodeRows.find? (fun r => r.selects w) with
  | some r => .ok (r.build w)
  | none => .error (if opcodeDefined w then .nonZeroField else .reservedOpcode)

/-- An R-format word: the opcode in bits 7:0 and the register numbers in their fields, `rd[11:8]`, `rs1[15:12]`,
`rs2[19:16]`, `rk[23:20]`, `rn[27:24]`; `zero[31:28]` is 0 (R71). -/
def encodeR (opcode : Nat) (rd rs1 rs2 rk rn : Reg) : Word :=
  BitVec.ofNat 32 (opcode + rd.val * 2 ^ 8 + rs1.val * 2 ^ 12 + rs2.val * 2 ^ 16 + rk.val * 2 ^ 20 + rn.val * 2 ^ 24)

/-- An I-format word: the opcode in bits 7:0, `rd[11:8]`, `imm20[31:12]` (R71). -/
def encodeI (opcode : Nat) (rd : Reg) (imm20 : BitVec 20) : Word :=
  BitVec.ofNat 32 (opcode + rd.val * 2 ^ 8 + imm20.toNat * 2 ^ 12)

/-- The word of a command (R71 to R73); a field the command does not use is 0. -/
def encode : Instr → Word
  | .li rd imm20 => encodeI 0x01 rd imm20
  | .bitlen rd rs1 => encodeR 0x10 rd rs1 0 0 0
  | .mont rd rk rs1 => encodeR 0x11 rd rs1 0 rk 0
  | .barrett rd rk rs1 => encodeR 0x12 rd rs1 0 rk 0
  | .modinv rd rs1 rs2 => encodeR 0x13 rd rs1 rs2 0 0
  | .moddec rd rs1 rs2 => encodeR 0x14 rd rs1 rs2 0 0
  | .phi rd rs1 rs2 => encodeR 0x15 rd rs1 rs2 0 0
  | .fermat rd rk rs1 rs2 => encodeR 0x16 rd rs1 rs2 rk 0
  | .primegen rd rk rn rs1 => encodeR 0x17 rd rs1 0 rk rn

/-- The command word of a table row given as `nbits` bits `w`, bit 0 the least significant: every bit above `nbits`
is 0. A command is one 32-bit word (R70), delivered as a number by one bus write (R55, R62). -/
def tableWord (nbits w : Nat) : Word :=
  BitVec.ofNat 32 (w % 2 ^ nbits)

/-- The instruction the decoder reads from a table row's word. -/
def decodeTableWord (nbits w : Nat) : Option Instr :=
  (decode (tableWord nbits w)).toOption

/-- A register operand as the assembler writes it, `x0` to `x15` (R77). -/
def asmReg (r : Reg) : String := "x" ++ toString r.val

/-- A command as the assembler writes it: the mnemonic, then destinations, sources and the immediate,
separated by commas (R77). -/
def asm : Instr → String
  | .li rd imm20 => "LI " ++ asmReg rd ++ ", " ++ toString imm20.toNat
  | .bitlen rd rs1 => "BITLEN " ++ asmReg rd ++ ", " ++ asmReg rs1
  | .mont rd rk rs1 => "MONT " ++ asmReg rd ++ ", " ++ asmReg rk ++ ", " ++ asmReg rs1
  | .barrett rd rk rs1 => "BARRETT " ++ asmReg rd ++ ", " ++ asmReg rk ++ ", " ++ asmReg rs1
  | .modinv rd rs1 rs2 => "MODINV " ++ asmReg rd ++ ", " ++ asmReg rs1 ++ ", " ++ asmReg rs2
  | .moddec rd rs1 rs2 => "MODDEC " ++ asmReg rd ++ ", " ++ asmReg rs1 ++ ", " ++ asmReg rs2
  | .phi rd rs1 rs2 => "PHI " ++ asmReg rd ++ ", " ++ asmReg rs1 ++ ", " ++ asmReg rs2
  | .fermat rd rk rs1 rs2 =>
    "FERMAT " ++ asmReg rd ++ ", " ++ asmReg rk ++ ", " ++ asmReg rs1 ++ ", " ++ asmReg rs2
  | .primegen rd rk rn rs1 =>
    "PRIMEGEN " ++ asmReg rd ++ ", " ++ asmReg rk ++ ", " ++ asmReg rn ++ ", " ++ asmReg rs1

end Sys2Proof
end

