-- ==== Sys2Proof/Machine/Arith.lean ====
section
/-! DEFINITION. The arithmetic of the spec, on exact natural numbers (`spec/00_scope.md` R13 to R17,
`spec/45_common_semantics.md` R140 to R144). Nothing wraps; the width `W` enters in `fits` only. -/

namespace Sys2Proof.Machine

/-- `bitLength(v)`, the least `k` with `v < 2^k` (R13); `bitLength 0 = 0`. -/
def bitLength (v : Nat) : Nat :=
  if v = 0 then 0 else v.log2 + 1

/-- A value a `W`-bit register can hold: `v < 2^W`, that is `bitLength(v) ≤ W` (R6, R13, R175). -/
def fits (W v : Nat) : Bool :=
  decide (bitLength v ≤ W)

/-- Floor square root, one bit of the root per pair of bits of `v`: for `v < 2^bits` the answer is `isqrt(v)`. -/
def isqrtDigits : (bits : Nat) → (v : Nat) → Nat
  | 0, _ => 0
  | bits + 1, v =>
    let r := 2 * isqrtDigits bits (v / 4)
    if (r + 1) * (r + 1) ≤ v then r + 1 else r

/-- `isqrt(v)`, the greatest `r` with `r · r ≤ v` (R15). -/
def isqrt (v : Nat) : Nat :=
  isqrtDigits (bitLength v) v

/-- `absdiff(a, b)`, the larger minus the smaller (R16, R142). -/
def absdiff (a b : Nat) : Nat :=
  if b ≤ a then a - b else b - a

/-- The extended Euclidean algorithm on naturals, keeping `a · t0 ≡ r0` and `a · t1 ≡ r1` modulo `m`. -/
def invSteps (m : Nat) : (fuel r0 r1 t0 t1 : Nat) → Nat
  | 0, _, _, t0, _ => t0
  | fuel + 1, r0, r1, t0, t1 =>
    if r1 = 0 then t0
    else invSteps m fuel r1 (r0 % r1) t1 ((t0 + (m - r0 / r1 * t1 % m)) % m)

/-- `inv(a, m)`, the `r < m` with `(a · r) mod m = 1 mod m`, for `m ≥ 1` and `gcd(a, m) = 1` (R17). Any algorithm
with this result conforms; evaluated only where the inverse exists. -/
def inv (a m : Nat) : Nat :=
  invSteps m m m (a % m) 0 (1 % m)

end Sys2Proof.Machine
end

