-- ==== Sys2Proof/Config.lean ====
section
/-! DEFINITION. What one implementation of the engine fixes (`spec/00_scope.md` R6, R8 to R10) and the free
values. Every constant here is opaque and has no body: the spec leaves each of them open, so a proof may use
what the spec states about them (`Params.Valid`) and nothing else. -/

namespace Sys2Proof

/-- The value the platform's entropy input presents at a reset (R9, R202). The spec leaves the type open;
a value is told from another by a natural number and by nothing else (DESIGN CHOICE, safe, log entry 3). -/
structure Seed where
  code : Nat
  deriving DecidableEq, Repr, Inhabited

/-- The hidden state of the random source (R9, R36), an open type; coded as `Seed` is
(DESIGN CHOICE, safe, log entry 3). -/
structure RngState where
  code : Nat
  deriving DecidableEq, Repr, Inhabited

/-- The open parameters of the spec (R6, R8, R9, R10; `spec/92_eei_decisions.md`, the list at its end).
The default values serve one purpose: they show that parameters meeting `Params.Valid` exist, which Lean asks for
before it admits an opaque constant. They are not the values of the implementation in hand. -/
structure Params where
  /-- `W`, the width of a general register in bits (R6). -/
  width : Nat := 64
  /-- `MAXATT_RESET` (R8). -/
  maxattReset : Word := 0
  /-- `BASE`, the bus address of the register window (R10). -/
  base : Nat := 0
  /-- `PRP`, the verdict of the probabilistic primality test (R9); nothing else is known of it. -/
  prp : Nat → Bool := fun _ => true
  /-- `InitRng` (R9). -/
  initRng : Seed → RngState := fun s => ⟨s.code⟩
  /-- `DrawPrime` (R9). -/
  drawPrime : Nat → RngState → Nat × RngState := fun b g => (2 ^ (b - 1), g)

/-- What the spec states of the open parameters: `W` is a multiple of 32 with `64 ≤ W ≤ 65504` (R6), and
`DrawPrime b g` answers, for `b ≥ 2`, a value of bit length `b` that `PRP` accepts (R9).
`2 ^ (b - 1) ≤ v < 2 ^ b` says `bitLength(v) = b` (R13). -/
structure Params.Valid (P : Params) : Prop where
  width_mod : P.width % 32 = 0
  width_min : 64 ≤ P.width
  width_max : P.width ≤ 65504
  draw_min : ∀ b g, 2 ≤ b → 2 ^ (b - 1) ≤ (P.drawPrime b g).1
  draw_max : ∀ b g, 2 ≤ b → (P.drawPrime b g).1 < 2 ^ b
  draw_prp : ∀ b g, 2 ≤ b → P.prp (P.drawPrime b g).1 = true

/-- Parameters that meet the spec's constraints exist. -/
theorem Params.default_valid : ({} : Params).Valid where
  width_mod := by decide
  width_min := by decide
  width_max := by decide
  draw_min := fun _ _ _ => Nat.le_refl _
  draw_max := fun b _ h => Nat.pow_lt_pow_right (by omega) (by omega)
  draw_prp := fun _ _ _ => rfl

/-- Parameters together with the proof that they meet the spec's constraints. -/
structure Implementation where
  params : Params := {}
  valid : params.Valid := by exact Params.default_valid
  deriving Inhabited

/-- The implementation in hand: no body, so nothing but `Implementation.valid` is known of it. -/
opaque Config.implementation : Implementation

/-- FREE VALUE: the seed the entropy input presents at the reset with this number, "a draw under no law"
(R202, `spec/93_implementation_defined.md` U7; log entry 4). -/
opaque Config.seedAt : Nat → Seed

/-- FREE VALUE: how the external serializer renders the value 0, which no source states
(`spec/91_not_in_source.md` N23; log entry 17). -/
opaque Config.hexOfZero : String

/-- `W` (R6). -/
def Config.W : Nat := Config.implementation.params.width

/-- `MAXATT_RESET` (R8). -/
def Config.maxattReset : Word := Config.implementation.params.maxattReset

/-- `BASE` (R10). -/
def Config.base : Nat := Config.implementation.params.base

/-- `PRP` (R9). -/
def Config.prp : Nat → Bool := Config.implementation.params.prp

/-- `InitRng` (R9). -/
def Config.initRng : Seed → RngState := Config.implementation.params.initRng

/-- `DrawPrime` (R9). -/
def Config.drawPrime : Nat → RngState → Nat × RngState := Config.implementation.params.drawPrime

end Sys2Proof
end

