-- ==== Sys2Proof/Machine/State.lean ====
section
/-! DEFINITION. The whole state of the engine (`spec/10_state.md` R38), the environment it is stepped in
(`spec/00_scope.md` R18), and the state after reset (`spec/70_reset_and_hazards.md` R201). Plain data. -/

namespace Sys2Proof.Machine

/-- The execution state STATE (R30). -/
inductive ExecState where
  | idle
  | busy
  | faulted
  deriving DecidableEq, Repr

/-- A width the engine never admits: "8, 16, 64 bits, a burst" (R56). -/
inductive OddWidth where
  | bits8
  | bits16
  | bits64
  | burst
  deriving DecidableEq, Repr

/-- One access of the host, at an absolute bus address (R52, R53, R56). An access of another width than 32 bits
is refused whatever its direction and data are, so those are not kept (log entry 10). -/
inductive BusAccess where
  | read (addr : Nat)
  | write (addr : Nat) (v : Word)
  | odd (width : OddWidth) (addr : Nat)
  deriving DecidableEq, Repr

/-- What the host gets back from one access (R52, R53, R57). -/
inductive BusResponse where
  /-- an admitted read: the 32-bit value (R52) -/
  | data (v : Word)
  /-- an admitted write (R53) -/
  | ok
  /-- a refused access; a refused read returns no data (R57) -/
  | busError
  /-- the address is outside the window: the engine does not respond, the answer is the platform's (R51, U14;
  log entry 8) -/
  | outsideWindow
  deriving DecidableEq, Repr

/-- Whose move comes next (R18): the engine's, one access of the host, or the platform's reset input (R200). -/
inductive Turn where
  | engine
  | access (a : BusAccess)
  | reset
  deriving DecidableEq, Repr

/-- The model's own reasons to stop with a fault: there are none. Every command word and every admitted access has
a defined outcome in every state (`spec/93_implementation_defined.md`, "There is no `stuck` item"; R208). The
engine's own faults (R170) are next states, in `ExecState.faulted`. -/
inductive Fault where
  deriving DecidableEq, Repr

/-- Reasons the model gives no meaning. -/
inductive Refusal where
  /-- Raised by an arm of `exec` whose instruction has no meaning yet. Safe. No arm raises it. -/
  | notModelled (mnemonic : String)
  deriving DecidableEq, Repr

end Sys2Proof.Machine

namespace Sys2Proof.Machine

/-- The state. The first nine fields are the spec's record (R38), in its order; the last three are the model's own
and stand for the environment (log entries 4 and 5). -/
structure State where
  /-- `x[0..15]`, naturals (R20). That each is `< 2^W` is part of the invariant (`Sys2Proof.EngineInv`). -/
  x : Vector Nat 16
  /-- STATE (R30). -/
  execState : ExecState
  /-- STATUS.DONE (R28). -/
  done : Bool
  /-- STATUS.ACC, the engine's only flag (R29). -/
  acc : Bool
  /-- STATUS.FCODE (R28, R171). -/
  fcode : BitVec 4
  /-- CMD (R33). -/
  cmd : Word
  /-- MAXATT (R34). -/
  maxatt : Word
  /-- ATT (R35). -/
  att : Word
  /-- `rng`, the hidden state of the random source (R36). -/
  rng : RngState
  /-- MODEL'S OWN: how many seeds have been drawn from the entropy input (R202, log entry 4). -/
  seedsDrawn : Nat
  /-- MODEL'S OWN: the turns to come, oldest first (R18, R60, log entry 5). -/
  turns : List Turn
  /-- MODEL'S OWN: what the host's last access got (R52, R53, log entry 5). -/
  response : Option BusResponse
  deriving DecidableEq, Repr

/-- The state after the first reset (R201), with seed number 0 (R202). -/
def State.reset : State where
  x := Vector.replicate 16 0
  execState := .idle
  done := false
  acc := false
  fcode := 0
  cmd := 0
  maxatt := Config.maxattReset
  att := 0
  rng := Config.initRng (Config.seedAt 0)
  seedsDrawn := 1
  turns := []
  response := none

end Sys2Proof.Machine
end

