-- ==== Sys2Proof/Machine/Ops.lean ====
section
/-! DEFINITION. The shared operations over the state: reading and writing a general register, how a command ends
(`spec/10_state.md` R31), fault entry (`spec/60_exceptions.md` R176) and reset
(`spec/70_reset_and_hazards.md` R200 to R202). There is no return from a fault but reset (R181). -/

namespace Sys2Proof.Machine

/-- `x[r]` (R12, R20). -/
def State.reg (s : State) (r : Reg) : Nat := s.x[r]

/-- `x[r] <- v` (R12); the caller has checked `v < 2^W`. -/
def State.setReg (s : State) (r : Reg) (v : Nat) : State :=
  { s with x := s.x.set r v }

/-- Destination writes in the order a command lists them; a later write to the same register remains (R22). -/
def State.writeRegs (s : State) : List (Reg × Nat) → State
  | [] => s
  | (r, v) :: rest => (s.setReg r v).writeRegs rest

/-- The six fault causes (R170, R171). -/
inductive Cause where
  | invalidInput
  | arithmeticInvariantViolation
  | primeGenerationExhaustion
  | badOperand
  | rangeOverflow
  | illegalCommand
  deriving DecidableEq, Repr

/-- The fault code recorded in STATUS.FCODE (R171). -/
def Cause.code : Cause → BitVec 4
  | .invalidInput => 1
  | .arithmeticInvariantViolation => 2
  | .primeGenerationExhaustion => 3
  | .badOperand => 4
  | .rangeOverflow => 5
  | .illegalCommand => 6

/-- What a command that ends normally writes (R31): its destinations in order, and ACC, ATT and `rng` where the
command writes them. -/
structure Result where
  writes : List (Reg × Nat)
  acc : Option Bool := none
  att : Option Word := none
  rng : Option RngState := none
  deriving DecidableEq, Repr

/-- A command ends normally (R31): its writes take effect, DONE <- 1, STATE <- IDLE. -/
def State.commit (s : State) (r : Result) : State :=
  { s.writeRegs r.writes with
    acc := r.acc.getD s.acc
    att := r.att.getD s.att
    rng := r.rng.getD s.rng
    done := true
    execState := .idle }

/-- Fault entry with cause `c` (R176). CMD and MAXATT are unchanged; `rng`, unobservable from here on, keeps its
value (R95, log entry 7). -/
def State.faultEntry (s : State) (c : Cause) : State :=
  { s with
    x := Vector.replicate 16 0
    att := 0
    acc := false
    done := false
    fcode := c.code
    execState := .faulted }

/-- The end of a command (R31): its result takes effect, or the fault entry of the fault it raised. -/
def State.retire (s : State) : Except Cause Result → Host.Outcome State Fault Refusal
  | .ok r => .next (s.commit r)
  | .error c => .next (s.faultEntry c)

/-- A reset, as one indivisible transition (R201), with the seed the entropy input presents at it (R202). The
environment's own fields stay. -/
def State.resetEngine (s : State) : State :=
  { x := Vector.replicate 16 0
    execState := .idle
    done := false
    acc := false
    fcode := 0
    cmd := 0
    maxatt := Config.maxattReset
    att := 0
    rng := Config.initRng (Config.seedAt s.seedsDrawn)
    seedsDrawn := s.seedsDrawn + 1
    turns := s.turns
    response := s.response }

/-- An admitted MAXATT write: every value is legal (R34). -/
def State.setMaxatt (s : State) (v : Word) : State :=
  { s with maxatt := v }

/-- The turn at the head of the list taken off it (R18, log entry 5). -/
def State.dropTurn (s : State) : State :=
  { s with turns := s.turns.tail }

/-- An admitted CMD write (R33, R59): the word is latched, not decoded; DONE <- 0; STATE <- BUSY. -/
def State.launch (s : State) (w : Word) : State :=
  { s with cmd := w, done := false, execState := .busy }

end Sys2Proof.Machine
end

