-- ==== Sys2Proof/Machine/Flags.lean ====
section
/-! DEFINITION. The one flag, ACC, and the STATUS word (`spec/10_state.md` R28, R29;
`spec/40_primegen.md` R93). -/

namespace Sys2Proof.Machine

/-- `FermatOK(p, q)`: `absdiff(p, q) > isqrt((p · q) div 2)`, strictly (R93). It is the value of ACC (R94) and the
acceptance test of PRIMEGEN (R95). -/
def fermatOk (p q : Nat) : Bool :=
  decide (isqrt (p * q / 2) < absdiff p q)

/-- STATUS as the host reads it (R28): BUSY bit 0, DONE bit 1, FAULT bit 2, ACC bit 3, bits 7:4 zero, FCODE bits
11:8, bits 31:12 zero. -/
def State.statusWord (s : State) : Word :=
  0#20 ++ s.fcode ++ 0#4 ++ BitVec.ofBool s.acc ++ BitVec.ofBool (s.execState == .faulted) ++
    BitVec.ofBool s.done ++ BitVec.ofBool (s.execState == .busy)

end Sys2Proof.Machine
end

