-- ==== Sys2Proof/Machine/Bus.lean ====
section
/-! DEFINITION. The host's accesses to the register window (`spec/20_memory.md` R50 to R64): the address map, the
admission table, what an admitted access reads and writes, and how each access is answered. The width `W` and the
window's address `base` are arguments, as the spec has it (R6, R10); `State.busAccess` at the end puts in the
implementation's. -/

namespace Sys2Proof.Machine

/-- What stands at an aligned offset of the window (R51). -/
inductive Target where
  | id
  | param
  | status
  | ctrl
  | cmd
  | maxatt
  | att
  | reserved
  /-- word `j` of general register `x[i]` (R54) -/
  | regWord (i : Reg) (j : Nat)
  deriving DecidableEq, Repr

/-- The target at the aligned byte offset `off` from BASE, or none outside the window (R51). -/
def targetAt (W off : Nat) : Option Target :=
  if off < 0x1000 then
    some (match off with
      | 0x000 => .id
      | 0x004 => .param
      | 0x008 => .status
      | 0x00C => .ctrl
      | 0x010 => .cmd
      | 0x014 => .maxatt
      | 0x018 => .att
      | _ => .reserved)
  else if h : (off - 0x1000) / (W / 8) < 16 then
    some (.regWord ⟨(off - 0x1000) / (W / 8), h⟩ ((off - 0x1000) % (W / 8) / 4))
  else none

/-- The admission table of R58, columns "read". -/
def admitsRead : ExecState → Target → Bool
  | _, .id | _, .param | _, .status | _, .ctrl => true
  | _, .reserved => false
  | .busy, .cmd | .busy, .maxatt | .busy, .att | .busy, .regWord _ _ => false
  | .idle, .cmd | .idle, .maxatt | .idle, .att | .idle, .regWord _ _ => true
  | .faulted, .cmd | .faulted, .maxatt | .faulted, .att | .faulted, .regWord _ _ => true

/-- The admission table of R58, columns "write"; CTRL admits the values 0 and 1 only (R32). -/
def admitsWrite : ExecState → Target → Word → Bool
  | _, .ctrl, v => v == 0 || v == 1
  | .idle, .cmd, _ | .idle, .maxatt, _ | .idle, .regWord _ _, _ => true
  | .busy, .cmd, _ | .busy, .maxatt, _ | .busy, .regWord _ _, _ => false
  | .faulted, .cmd, _ | .faulted, .maxatt, _ | .faulted, .regWord _ _, _ => false
  | _, .id, _ | _, .param, _ | _, .status, _ | _, .att, _ | _, .reserved, _ => false

/-- The field `a[32·j+31 : 32·j]` (R11, R54). -/
def wordField (a j : Nat) : Nat := a / 2 ^ (32 * j) % 2 ^ 32

/-- `a` with the field `a[32·j+31 : 32·j]` replaced by `v` (R54). -/
def replaceWord (a j : Nat) (v : Word) : Nat :=
  a - wordField a j * 2 ^ (32 * j) + v.toNat * 2 ^ (32 * j)

/-- The identification word (R26). -/
def idWord : Word := 0x47484501

/-- PARAM: `W` in bits 15:0 and 16 in bits 23:16 (R25, R27). -/
def paramWord (W : Nat) : Word := BitVec.ofNat 32 (W + 0x100000)

/-- What an admitted read returns (R25 to R35, R52, R54); nothing is admitted at a reserved offset (R64). -/
def State.readTarget (W : Nat) (s : State) : Target → Option Word
  | .id => some idWord
  | .param => some (paramWord W)
  | .status => some s.statusWord
  | .ctrl => some 0
  | .cmd => some s.cmd
  | .maxatt => some s.maxatt
  | .att => some s.att
  | .regWord i j => some (BitVec.ofNat 32 (wordField (s.reg i) j))
  | .reserved => none

/-- The effect of an admitted write (R32, R33, R34, R53, R54, R59). -/
def State.writeTarget (s : State) (v : Word) : Target → State
  | .ctrl => if v = 1 then s.resetEngine else s
  | .cmd => s.launch v
  | .maxatt => s.setMaxatt v
  | .regWord i j => s.setReg i (replaceWord (s.reg i) j v)
  | .id | .param | .status | .att | .reserved => s

/-- The host gets `r`. -/
def State.respond (s : State) (r : BusResponse) : State := { s with response := some r }

/-- `BusRead` of the 32-bit word at byte offset `off` (R52, R56 to R58). -/
def State.busRead (W off : Nat) (s : State) : BusResponse :=
  match targetAt W off with
  | none => .outsideWindow
  | some t =>
    if off % 4 = 0 ∧ admitsRead s.execState t = true then
      match s.readTarget W t with
      | some v => .data v
      | none => .busError
    else .busError

/-- `BusWrite` of `v` to the 32-bit word at byte offset `off` (R53, R56 to R58). -/
def State.busWrite (W off : Nat) (v : Word) (s : State) : State :=
  match targetAt W off with
  | none => s.respond .outsideWindow
  | some t =>
    if off % 4 = 0 ∧ admitsWrite s.execState t v = true then (s.writeTarget v t).respond .ok
    else s.respond .busError

/-- An access of another width than 32 bits (R56), classified by its first byte. DEDUCED (log entry 10): it is refused
when that byte is inside the window, and is the platform's to answer when it is not, though it reach into the window. -/
def busOdd (W off : Nat) : BusResponse :=
  match targetAt W off with
  | none => .outsideWindow
  | some _ => .busError

/-- One access of the host, at an absolute bus address, in an engine of width `W` whose window stands at `base`
(R10, R50). A read changes nothing but the host's answer (R52). DEDUCED (log entry 10): an access whose first byte is
below `base` is outside the window, one that reaches into it too; what it is answered is log entry 8. -/
def State.accessAt (W base : Nat) (a : BusAccess) (s : State) : State :=
  match a with
  | .read addr =>
    if addr < base then s.respond .outsideWindow else s.respond (s.busRead W (addr - base))
  | .write addr v =>
    if addr < base then s.respond .outsideWindow else s.busWrite W (addr - base) v
  | .odd _ addr =>
    if addr < base then s.respond .outsideWindow else s.respond (busOdd W (addr - base))

/-- One access of the host to the implementation in hand. -/
def State.busAccess (a : BusAccess) (s : State) : State :=
  s.accessAt Config.W Config.base a

/-- The bus address of the control register at byte offset `off` (R51). -/
def controlAddr (base off : Nat) : Nat := base + off

/-- The bus address of word `j` of `x[i]` (R51, R54). -/
def regWordAddr (W base : Nat) (i : Reg) (j : Nat) : Nat := base + (0x1000 + i.val * (W / 8) + 4 * j)

/-- The byte lane `k` of a word: lane 0 carries bits 7:0, lane 3 bits 31:24 (R55). -/
def byteLane (v : Word) (k : Nat) : Byte := v.extractLsb' (8 * k) 8

/-- The byte a host whose bus numbers bytes sees at offset `off`, in the aligned word that holds it (R55). -/
def State.windowByte (W off : Nat) (s : State) : Option Byte :=
  match s.busRead W (off - off % 4) with
  | .data v => some (byteLane v (off % 4))
  | _ => none

end Sys2Proof.Machine
end

