-- ==== Sys2Proof/Machine/Operands.lean ====
section
/-! DEFINITION. The operand forms of a command (`spec/30_encoding.md` R74): a general register named by a 4-bit
field, and LI's 20-bit immediate. There are no others: no addressing modes, no scaled or shifted operands. -/

namespace Sys2Proof.Machine

/-- `zext_W(imm20)`: the natural 0 to 1048575, without sign extension, scaling or shifting (R12, R74). It fits every
register, since `W ≥ 64` (R6, R150). -/
def zextImm (imm20 : BitVec 20) : Nat := imm20.toNat

/-- The value of a source register, read before any destination is written (R22). -/
def State.source (s : State) (r : Reg) : Nat := s.reg r

end Sys2Proof.Machine
end

