-- ==== Sys2Proof/Machine/Barrett.lean ====
section
/-! DEFINITION. BARRETT (`spec/41_barrett.md` R110 to R113). -/

namespace Sys2Proof.Machine

/-- The source's BarrettConstants (R110). -/
structure BarrettConstants where
  shift : Nat
  factor : Nat
  deriving DecidableEq, Repr

/-- BARRETT on a natural, in a `W`-bit engine: BadOperand at 0, RangeOverflow when the factor does not fit (R111),
else `shift = 2·bitLength(m)`, `factor = 2^shift div m` (R110). -/
def barrettConstants (W m : Nat) : Except Cause BarrettConstants :=
  if m = 0 then .error .badOperand
  else if fits W (2 ^ (2 * bitLength m) / m) then
    .ok { shift := 2 * bitLength m, factor := 2 ^ (2 * bitLength m) / m }
  else .error .rangeOverflow

/-- `BARRETT rd, rk, rs1` (R111): the shift is written first, the factor last. -/
def execBarrett (rd rk rs1 : Reg) (s : State) : Host.Outcome State Fault Refusal :=
  s.retire ((barrettConstants Config.W (s.source rs1)).map fun c =>
    { writes := [(rk, c.shift), (rd, c.factor)] })

end Sys2Proof.Machine
end

