-- ==== Sys2Proof/Machine/Crt.lean ====
section
/-! DEFINITION. MODINV and MODDEC (`spec/43_crt_modinv.md` R130, R131). -/

namespace Sys2Proof.Machine

/-- MODINV on two naturals: BadOperand at modulus 0, then ArithmeticInvariantViolation when no inverse exists
(R130). -/
def modinvValue (a m : Nat) : Except Cause Nat :=
  if m = 0 then .error .badOperand
  else if Nat.gcd a m ≠ 1 then .error .arithmeticInvariantViolation
  else .ok (inv a m)

/-- MODDEC on two naturals: BadOperand when `p ≤ 1`, else `d mod (p − 1)` (R131). -/
def moddecValue (d p : Nat) : Except Cause Nat :=
  if p ≤ 1 then .error .badOperand else .ok (d % (p - 1))

/-- `MODINV rd, rs1, rs2` (R130). -/
def execModinv (rd rs1 rs2 : Reg) (s : State) : Host.Outcome State Fault Refusal :=
  s.retire ((modinvValue (s.source rs1) (s.source rs2)).map fun r => { writes := [(rd, r)] })

/-- `MODDEC rd, rs1, rs2` (R131). -/
def execModdec (rd rs1 rs2 : Reg) (s : State) : Host.Outcome State Fault Refusal :=
  s.retire ((moddecValue (s.source rs1) (s.source rs2)).map fun r => { writes := [(rd, r)] })

end Sys2Proof.Machine
end

