-- ==== Sys2Proof/Machine/Keypair.lean ====
section
/-! DEFINITION. LI and PHI (`spec/44_keypair_support.md` R150, R151). -/

namespace Sys2Proof.Machine

/-- PHI on two naturals, in a `W`-bit engine: BadOperand before RangeOverflow (R151). -/
def phiValue (W p q : Nat) : Except Cause Nat :=
  if p = 0 ∨ q = 0 then .error .badOperand
  else if fits W ((p - 1) * (q - 1)) then .ok ((p - 1) * (q - 1))
  else .error .rangeOverflow

/-- `LI rd, imm20` (R150). -/
def execLi (rd : Reg) (imm20 : BitVec 20) (s : State) : Host.Outcome State Fault Refusal :=
  s.retire (.ok { writes := [(rd, zextImm imm20)] })

/-- `PHI rd, rs1, rs2` (R151). -/
def execPhi (rd rs1 rs2 : Reg) (s : State) : Host.Outcome State Fault Refusal :=
  s.retire ((phiValue Config.W (s.source rs1) (s.source rs2)).map fun f => { writes := [(rd, f)] })

end Sys2Proof.Machine
end

