-- ==== Sys2Proof/Machine/Montgomery.lean ====
section
/-! DEFINITION. BITLEN and MONT (`spec/42_montgomery.md` R120 to R123). -/

namespace Sys2Proof.Machine

/-- The source's MontgomeryConstants (R121). -/
structure MontgomeryConstants where
  bitLength : Nat
  rr : Nat
  deriving DecidableEq, Repr

/-- MONT on a natural: BadOperand at 0 (R122), else `(bitLength(m), 2^(2·bitLength(m)) mod m)` (R121). -/
def montgomeryConstants (m : Nat) : Except Cause MontgomeryConstants :=
  if m = 0 then .error .badOperand
  else .ok { bitLength := bitLength m, rr := 2 ^ (2 * bitLength m) % m }

/-- `BITLEN rd, rs1` (R120). -/
def execBitlen (rd rs1 : Reg) (s : State) : Host.Outcome State Fault Refusal :=
  s.retire (.ok { writes := [(rd, bitLength (s.source rs1))] })

/-- `MONT rd, rk, rs1` (R122): the bit length is written first, rr last. -/
def execMont (rd rk rs1 : Reg) (s : State) : Host.Outcome State Fault Refusal :=
  s.retire ((montgomeryConstants (s.source rs1)).map fun c =>
    { writes := [(rk, c.bitLength), (rd, c.rr)] })

end Sys2Proof.Machine
end

