-- ==== Sys2Proof/Machine/Primegen.lean ====
section
/-! DEFINITION. FERMAT and PRIMEGEN (`spec/40_primegen.md` R90 to R97). -/

namespace Sys2Proof.Machine

/-- What FERMAT computes: the product, the threshold and the verdict (R94). -/
structure FermatVerdict where
  n : Nat
  threshold : Nat
  accept : Bool
  deriving DecidableEq, Repr

/-- FERMAT on two naturals, in a `W`-bit engine: RangeOverflow when the product does not fit (R94). -/
def fermatVerdict (W p q : Nat) : Except Cause FermatVerdict :=
  if fits W (p * q) then
    .ok { n := p * q, threshold := isqrt (p * q / 2), accept := fermatOk p q }
  else .error .rangeOverflow

/-- What PRIMEGEN delivers: the source's Keypair `(p, q, n)`, the attempt number it accepted at and the random
state after its draws (R90, R95). -/
structure PrimePair where
  p : Nat
  q : Nat
  n : Nat
  attempt : Nat
  rng : RngState
  deriving DecidableEq, Repr

/-- The retry loop of R95 from the start of attempt `k`, where `rest = L − k` (0 where `L < k`): InvalidInput when
`rest < 2`, then PrimeGenerationExhaustion when `k > MAXATT`, then p is drawn with `L + k` bits and q, from the state
that draw returned, with `L − k` bits (R91); a rejected attempt's draws are not undone. -/
def primeAttempts (maxatt : Nat) (draw : Nat → RngState → Nat × RngState) (L : Nat) :
    (rest k : Nat) → RngState → Except Cause PrimePair
  | 0, _, _ => .error .invalidInput
  | 1, _, _ => .error .invalidInput
  | rest + 2, k, g =>
    if maxatt < k then .error .primeGenerationExhaustion
    else
      let drawP := draw (L + k) g
      let drawQ := draw (rest + 2) drawP.2
      if fermatOk drawP.1 drawQ.1 then
        .ok { p := drawP.1, q := drawQ.1, n := drawP.1 * drawQ.1, attempt := k, rng := drawQ.2 }
      else primeAttempts maxatt draw L (rest + 1) (k + 1) drawQ.2

/-- PRIMEGEN on a target length, in a `W`-bit engine: RangeOverflow when `2·L > W`, tested before any draw, then the
retry loop from `k = 1` (R95). -/
def primePair (W maxatt : Nat) (draw : Nat → RngState → Nat × RngState) (L : Nat) (g : RngState) :
    Except Cause PrimePair :=
  if W < 2 * L then .error .rangeOverflow
  else primeAttempts maxatt draw L (L - 1) 1 g

/-- `FERMAT rd, rk, rs1, rs2` (R94): the threshold is written first, n last, and ACC is written. -/
def execFermat (rd rk rs1 rs2 : Reg) (s : State) : Host.Outcome State Fault Refusal :=
  s.retire ((fermatVerdict Config.W (s.source rs1) (s.source rs2)).map fun v =>
    { writes := [(rk, v.threshold), (rd, v.n)], acc := some v.accept })

/-- `PRIMEGEN rd, rk, rn, rs1` (R95): n, then q, then p is written; ATT and `rng` are written. The attempt number is
at most MAXATT, so it fits ATT. -/
def execPrimegen (rd rk rn rs1 : Reg) (s : State) : Host.Outcome State Fault Refusal :=
  s.retire ((primePair Config.W s.maxatt.toNat Config.drawPrime (s.source rs1) s.rng).map fun k =>
    { writes := [(rn, k.n), (rk, k.q), (rd, k.p)]
      att := some (BitVec.ofNat 32 k.attempt)
      rng := some k.rng })

end Sys2Proof.Machine
end

