-- ==== Sys2Proof/Machine/Dispatch.lean ====
section
/-! DEFINITION. `Exec` of a decoded command (`spec/10_state.md` R31, `spec/30_encoding.md` R79): one arm per
command, each one direct call of its meaning. -/

namespace Sys2Proof.Machine

def exec (i : Instr) (s : State) : Host.Outcome State Fault Refusal :=
  match i with
  | .li rd imm20 => Sys2Proof.Machine.execLi rd imm20 s
  | .bitlen rd rs1 => Sys2Proof.Machine.execBitlen rd rs1 s
  | .mont rd rk rs1 => Sys2Proof.Machine.execMont rd rk rs1 s
  | .barrett rd rk rs1 => Sys2Proof.Machine.execBarrett rd rk rs1 s
  | .modinv rd rs1 rs2 => Sys2Proof.Machine.execModinv rd rs1 rs2 s
  | .moddec rd rs1 rs2 => Sys2Proof.Machine.execModdec rd rs1 rs2 s
  | .phi rd rs1 rs2 => Sys2Proof.Machine.execPhi rd rs1 rs2 s
  | .fermat rd rk rs1 rs2 => Sys2Proof.Machine.execFermat rd rk rs1 rs2 s
  | .primegen rd rk rn rs1 => Sys2Proof.Machine.execPrimegen rd rk rn rs1 s

end Sys2Proof.Machine
end

