-- ==== Sys2Proof/Machine/Turn.lean ====
section
/-! DEFINITION. What one turn does (`spec/00_scope.md` R18): the engine's step Complete
(`spec/10_state.md` R31), one access of the host (`spec/20_memory.md` R52, R53), or the platform's reset
(`spec/70_reset_and_hazards.md` R200). Accesses take effect one at a time, in order, each between two engine steps
(R59, R60). -/

namespace Sys2Proof.Machine

/-- Complete (R31): the command CMD decodes to, or IllegalCommand when CMD decodes to none (R79, R178). -/
def State.complete (s : State) : Host.Outcome State Fault Refusal :=
  match decode s.cmd with
  | .ok i => exec i s
  | .error _ => .next (s.faultEntry .illegalCommand)

/-- The engine's turn: Complete, enabled exactly when STATE = BUSY (R31); otherwise the engine has no step. -/
def State.engineTurn (s : State) : Host.Outcome State Fault Refusal :=
  match s.execState with
  | .busy => s.complete
  | .idle | .faulted => .next s

/-- The turn at the head of the list, taken off it. When the list is empty the engine has the turn (R208, log
entry 5). -/
def State.takeTurn (s : State) : Host.Outcome State Fault Refusal :=
  match s.turns.head? with
  | none | some .engine => s.dropTurn.engineTurn
  | some (.access a) => .next (s.dropTurn.busAccess a)
  | some .reset => .next s.dropTurn.resetEngine

/-- `s` with the command word `w` latched as an admitted CMD write latches it, and the engine's turn next
(log entry 6). -/
def State.placeCommand (s : State) (w : Word) : State :=
  { s.launch w with turns := .engine :: s.turns }

end Sys2Proof.Machine
end

