-- ==== Sys2Proof/Machine/Step.lean ====
section
/-! DEFINITION. One step of the machine, and the placing of a command word where the next step runs it. -/

namespace Sys2Proof.Machine

/-- One step: the next turn. -/
def step (s : State) : Host.Outcome State Fault Refusal :=
  s.takeTurn

/-- `s` with the table row's word in CMD and the engine about to run it: the command in execution is the pair
(CMD, STATE = BUSY) (R24). It stands for the host's CMD write (log entry 6). -/
def State.withFetchWord (s : State) (nbits w : Nat) : State :=
  s.placeCommand (tableWord nbits w)

end Sys2Proof.Machine
end

