-- ==== Sys2Proof/Machine/Sequences.lean ====
section
/-! DEFINITION. Host software over the commands (`spec/00_scope.md` R4): program lines and how the host executes
them (`spec/30_encoding.md` R77, `spec/70_reset_and_hazards.md` R204, R210), the pseudo-instructions CRT
(`spec/43_crt_modinv.md` R132) and KEYGEN (`spec/44_keypair_support.md` R152 to R161), the two output records and
the rendering of a number (R159, R160). Everything reaches the engine through bus accesses and its own step. -/

namespace Sys2Proof.Machine

/-- A line of a host program (R77): a command, or one of the two host directives. -/
inductive HostLine where
  | command (i : Instr)
  /-- `HOSTWR xi, v` -/
  | hostwr (r : Reg) (v : Nat)
  /-- `HOSTRD xi` -/
  | hostrd (r : Reg)
  deriving DecidableEq, Repr

/-- The host writes the 32-bit words `0 .. n−1` of `v` into `x[r]` through the window (R54, R77). DESIGN CHOICE (log
entry 27): word 0 first; R54 admits any order. -/
def State.hostWriteWords (r : Reg) (v : Nat) : (n : Nat) → State → State
  | 0, s => s
  | n + 1, s =>
    (s.hostWriteWords r v n).busAccess
      (.write (regWordAddr Config.W Config.base r n) (BitVec.ofNat 32 (wordField v n)))

/-- `HOSTWR x[r], v`: all `W/32` words (R77). -/
def State.hostWrite (r : Reg) (v : Nat) (s : State) : State :=
  s.hostWriteWords r v (Config.W / 32)

/-- The number the host puts together from the words `0 .. n−1` of `x[r]`, word 0 the least significant (R54); none
when an access is refused. -/
def State.hostReadWords (r : Reg) (s : State) : (n : Nat) → Option Nat
  | 0 => some 0
  | n + 1 =>
    match s.hostReadWords r n, (s.busAccess (.read (regWordAddr Config.W Config.base r n))).response with
    | some low, some (.data v) => some (low + v.toNat * 2 ^ (32 * n))
    | _, _ => none

/-- `HOSTRD x[r]`: all `W/32` words (R77). -/
def State.hostRead (r : Reg) (s : State) : Option Nat :=
  s.hostReadWords r (Config.W / 32)

/-- The host's read of STATUS, the end of its polling loop (R204). -/
def State.pollStatus (s : State) : State :=
  s.busAccess (.read (controlAddr Config.base 0x008))

/-- Executing a line (R77): a command's word is written to CMD, the engine completes, and the host has read STATUS.
The reads of STATUS that return BUSY = 1 change nothing (R28) and are left out, and of the reads of a HOSTRD, which
change nothing but the host's answer, the last one is kept (log entry 16); the number it delivers is
`State.hostRead`.

DESIGN CHOICE (log entry 27): the order in which a HOSTRD reads the words, which no rule gives (R77 says "the same way",
R54 speaks of writes). This host reads word 0 first and word `W/32 − 1` last, so the answer kept is the top word's.

DESIGN CHOICE (log entry 25): what a host does when an access of its line is refused, as all are that write CMD or a
register in BUSY or FAULTED. R57 leaves the reaction to `BusError` to the platform; this host ignores it: it goes on
to the line's next word, and after a refused CMD write the engine has its turn and the host polls as ever. -/
def runLine (l : HostLine) (s : State) : Host.Outcome State Fault Refusal :=
  match l with
  | .command i =>
    match (s.busAccess (.write (controlAddr Config.base 0x010) (encode i))).engineTurn with
    | .next t => .next t.pollStatus
    | o => o
  | .hostwr r v => .next (s.hostWrite r v)
  | .hostrd r => .next (s.busAccess (.read (regWordAddr Config.W Config.base r (Config.W / 32 - 1))))

/-- Executing a program: line after line, stopping when FAULT = 1 (R77, R204, R210).

DESIGN CHOICE (log entry 26): FAULT is tested after every line, a HOSTWR or HOSTRD too. R77 and R204 put the test after
the poll of a command and say nothing of the directives; it differs only in a program begun in FAULTED. -/
def runProgram : List HostLine → State → Host.Outcome State Fault Refusal
  | [], s => .next s
  | l :: rest, s =>
    match runLine l s with
    | .next t => if t.execState = .faulted then .next t else runProgram rest t
    | o => o

/-- A run ended in success: BUSY = 0, FAULT = 0, DONE = 1 (R210). -/
def State.succeeded (s : State) : Bool := s.execState == .idle && s.done

/-- The expansion of CRT, five commands (R78, R132). -/
def crtSequence (o : CrtOperands) : List Instr :=
  [ .moddec o.rdp o.rdd o.rp,
    .moddec o.rdq o.rdd o.rq,
    .modinv o.rqi o.rq o.rp,
    .barrett o.rfp o.rsp o.rp,
    .barrett o.rfq o.rsq o.rq ]

/-- The public exponent "e := 65537 (fixed)" (R156). -/
def publicExponent : BitVec 20 := 65537

/-- The CRT operands of KEYGEN's step 8 (R154, R155). -/
def keygenCrt : CrtOperands :=
  { rdp := 8, rdq := 9, rqi := 10, rfp := 12, rsp := 11, rfq := 14, rsq := 13, rp := 6, rq := 7, rdd := 5 }

/-- The eleven fixed commands of KEYGEN, steps 2 to 8 (R154). -/
def keygenCommands : List Instr :=
  [ .primegen 6 7 2 0,
    .li 1 publicExponent,
    .bitlen 3 2,
    .mont 4 3 2,
    .phi 15 6 7,
    .modinv 5 1 15 ] ++ crtSequence keygenCrt

/-- Step 1 of KEYGEN for the length `L`: `LI x0, L`, or `HOSTWR x0, L` when `L > 1048575` (R154). -/
def keygenLoad (L : Nat) : HostLine :=
  if L ≤ 1048575 then .command (.li 0 (BitVec.ofNat 20 L)) else .hostwr 0 L

/-- `KEYGEN T`: twelve lines, for `L = T div 2` (R153, R154). -/
def keygenSequence (T : Nat) : List HostLine :=
  keygenLoad (T / 2) :: keygenCommands.map .command

/-- The public key, in the source's field order (R159). -/
structure PublicKey where
  e : Nat
  n : Nat
  montgomeryBitLength : Nat
  montgomeryRr : Nat
  blockSize : Nat
  deriving DecidableEq, Repr

/-- The private key, in the source's field order (R159). -/
structure PrivateKey where
  d : Nat
  n : Nat
  p : Nat
  q : Nat
  dp : Nat
  dq : Nat
  qInvModP : Nat
  barrettPShift : Nat
  barrettPFactor : Nat
  barrettQShift : Nat
  barrettQFactor : Nat
  deriving DecidableEq, Repr

/-- Step 9 (R159): the host reads the records out of the registers of R155; `blockSize = x3 div 8` is its own
division (R157). None when a read is refused. -/
def State.readKeys (s : State) : Option (PublicKey × PrivateKey) := do
  let e ← s.hostRead 1
  let n ← s.hostRead 2
  let bits ← s.hostRead 3
  let rr ← s.hostRead 4
  let d ← s.hostRead 5
  let p ← s.hostRead 6
  let q ← s.hostRead 7
  let dp ← s.hostRead 8
  let dq ← s.hostRead 9
  let qInv ← s.hostRead 10
  let shiftP ← s.hostRead 11
  let factorP ← s.hostRead 12
  let shiftQ ← s.hostRead 13
  let factorQ ← s.hostRead 14
  return ({ e := e, n := n, montgomeryBitLength := bits, montgomeryRr := rr, blockSize := bits / 8 },
    { d := d, n := n, p := p, q := q, dp := dp, dq := dq, qInvModP := qInv,
      barrettPShift := shiftP, barrettPFactor := factorP,
      barrettQShift := shiftQ, barrettQFactor := factorQ })

/-- What the whole KEYGEN leaves the host with (R161): a complete pair of records, or the fault code alone. -/
def keygen (T : Nat) (s : State) : Except (BitVec 4) (Option (PublicKey × PrivateKey)) :=
  match runProgram (keygenSequence T) s with
  | .next t => if t.execState = .faulted then .error t.fcode else .ok t.readKeys
  | .fault _ => .ok none
  | .refused _ => .ok none

/-- A number as the serializer renders it (R160): lowercase hexadecimal, no leading zeros, prefixed `0x`. How 0 is
rendered is not stated (N23): a free value (log entry 17). -/
def renderHex (v : Nat) : String :=
  if v = 0 then Config.hexOfZero else "0x" ++ String.ofList (Nat.toDigits 16 v)

/-- The fields of the public key in the order the serializer keeps (R159, R160). -/
def PublicKey.fields (k : PublicKey) : List (String × Nat) :=
  [("e", k.e), ("n", k.n), ("montgomery.bitLength", k.montgomeryBitLength),
    ("montgomery.rr", k.montgomeryRr), ("blockSize", k.blockSize)]

/-- The fields of the private key in the order the serializer keeps (R159, R160). -/
def PrivateKey.fields (k : PrivateKey) : List (String × Nat) :=
  [("d", k.d), ("n", k.n), ("p", k.p), ("q", k.q), ("crt.dp", k.dp), ("crt.dq", k.dq),
    ("crt.qInvModP", k.qInvModP), ("crt.barrettP.shift", k.barrettPShift),
    ("crt.barrettP.factor", k.barrettPFactor), ("crt.barrettQ.shift", k.barrettQShift),
    ("crt.barrettQ.factor", k.barrettQFactor)]

/-- `c = m^e mod n`, with the public key (R162). -/
def PublicKey.encrypt (k : PublicKey) (m : Nat) : Nat := m ^ k.e % k.n

/-- `((m1 − m2) mod p)` on naturals: `m1` plus what `m2` lacks to a multiple of `p` (R162). -/
def subMod (m1 m2 p : Nat) : Nat := (m1 + (p - m2 % p)) % p

/-- The usual CRT decryption, by the consumer of the private key (R162). The source does not spell it out; the form is
the one R162 gives from general knowledge (PRESUMED, safe, log entry 23). -/
def PrivateKey.crtDecrypt (k : PrivateKey) (c : Nat) : Nat :=
  let m1 := c ^ k.dp % k.p
  let m2 := c ^ k.dq % k.q
  m2 + k.qInvModP * subMod m1 m2 k.p % k.p * k.q

end Sys2Proof.Machine
end

