-- ==== Sys2Proof/Safety.lean ====
section
/-! DEFINITION. What counts as a good state and a good end of a command, in the terms the claims use. -/

namespace Sys2Proof

open Sys2Proof.Machine

/-- The invariant of the engine. -/
structure EngineInv (s : State) : Prop where
  /-- every general register holds a natural `< 2^W` (R20) -/
  regs_fit : ∀ r : Reg, s.reg r < 2 ^ Config.W
  /-- "DONE is 0 whenever BUSY or FAULT is 1" (R28) -/
  done_idle : s.done = true → s.execState = .idle
  /-- in FAULTED, FCODE is one of the six codes (R171) -/
  faulted_code : s.execState = .faulted → 1 ≤ s.fcode.toNat ∧ s.fcode.toNat ≤ 6
  /-- FCODE is 0 when FAULT = 0 (R28) -/
  no_fault_code : s.execState ≠ .faulted → s.fcode = 0
  /-- in FAULTED every general register, ATT and ACC are 0 (R58, R176) -/
  faulted_clear : s.execState = .faulted → (∀ r : Reg, s.reg r = 0) ∧ s.att = 0 ∧ s.acc = false

/-- What no command touches, however it ends: CMD, MAXATT (R33, R34) and the environment. -/
structure KeepsFixed (s t : State) : Prop where
  cmd : t.cmd = s.cmd
  maxatt : t.maxatt = s.maxatt
  seedsDrawn : t.seedsDrawn = s.seedsDrawn
  turns : t.turns = s.turns
  response : t.response = s.response

/-- `t` is `s` after a command with the destinations `dests` ended normally (R31): IDLE, DONE, and every other
general register, FCODE, CMD, MAXATT and the environment as before. ACC, ATT and `rng` are said beside it. -/
structure Retires (dests : List Reg) (s t : State) : Prop where
  idle : t.execState = .idle
  done : t.done = true
  regs : ∀ r : Reg, r ∉ dests → t.reg r = s.reg r
  fcode : t.fcode = s.fcode
  fixed : KeepsFixed s t

/-- ACC, ATT and `rng` as before: "Flags: none. ACC, ATT and `rng` are unchanged". -/
structure KeepsFlags (s t : State) : Prop where
  acc : t.acc = s.acc
  att : t.att = s.att
  rng : t.rng = s.rng

/-- `t` is `s` after the fault entry with cause `c` (R176). Nothing is said of `rng` (R95). -/
structure FaultEntered (c : Cause) (s t : State) : Prop where
  faulted : t.execState = .faulted
  regs : ∀ r : Reg, t.reg r = 0
  att : t.att = 0
  acc : t.acc = false
  done : t.done = false
  fcode : t.fcode = c.code
  fixed : KeepsFixed s t

/-- `exec` of `i` in `s` ends in the fault `c`. -/
def Faults (i : Instr) (s : State) (c : Cause) : Prop :=
  ∃ t, exec i s = .next t ∧ FaultEntered c s t

/-- The engine's own state, the record of R38, is the same in `s` and `t`. -/
structure SameEngine (s t : State) : Prop where
  x : t.x = s.x
  execState : t.execState = s.execState
  done : t.done = s.done
  acc : t.acc = s.acc
  fcode : t.fcode = s.fcode
  cmd : t.cmd = s.cmd
  maxatt : t.maxatt = s.maxatt
  att : t.att = s.att
  rng : t.rng = s.rng
  seedsDrawn : t.seedsDrawn = s.seedsDrawn

/-- The registers a command reads (R71). -/
def sources : Instr → List Reg
  | .li _ _ => []
  | .bitlen _ rs1 => [rs1]
  | .mont _ _ rs1 => [rs1]
  | .barrett _ _ rs1 => [rs1]
  | .modinv _ rs1 rs2 => [rs1, rs2]
  | .moddec _ rs1 rs2 => [rs1, rs2]
  | .phi _ rs1 rs2 => [rs1, rs2]
  | .fermat _ _ rs1 rs2 => [rs1, rs2]
  | .primegen _ _ _ rs1 => [rs1]

/-- The registers a command writes (R71). -/
def destinations : Instr → List Reg
  | .li rd _ => [rd]
  | .bitlen rd _ => [rd]
  | .mont rd rk _ => [rk, rd]
  | .barrett rd rk _ => [rk, rd]
  | .modinv rd _ _ => [rd]
  | .moddec rd _ _ => [rd]
  | .phi rd _ _ => [rd]
  | .fermat rd rk _ _ => [rk, rd]
  | .primegen rd rk rn _ => [rn, rk, rd]

/-- A command that consults the random source (R97). -/
def usesRandom : Instr → Bool
  | .primegen _ _ _ _ => true
  | _ => false

/-- A command that writes ACC (R29). -/
def writesAcc : Instr → Bool
  | .fermat _ _ _ _ => true
  | _ => false

/-- The host access that resets the engine: a 32-bit write of 1 to CTRL (R32, R200). -/
def isResetWrite (a : BusAccess) : Prop :=
  a = .write (controlAddr Config.base 0x00C) 1

/-- It is the engine's turn (R18): the list is empty, or its head is the engine. -/
def engineNext (s : State) : Prop :=
  s.turns.head? = none ∨ s.turns.head? = some .engine

/-- The next turn is the host's access `a`. -/
def accessNext (s : State) (a : BusAccess) : Prop :=
  s.turns.head? = some (.access a)

/-- The next turn resets the engine: the platform's reset input, or the host's write of 1 to CTRL (R200). -/
def resetsNext (s : State) : Prop :=
  s.turns.head? = some .reset ∨ ∃ a, accessNext s a ∧ isResetWrite a

/-- The random state before attempt `k + 1` of a PRIMEGEN with length `L` that starts in the random state `g`: after
`k` attempts of two draws each (R91, R95). -/
def rngAfter (draw : Nat → RngState → Nat × RngState) (L : Nat) (g : RngState) : (k : Nat) → RngState
  | 0 => g
  | k + 1 => (draw (L - (k + 1)) (draw (L + (k + 1)) (rngAfter draw L g k)).2).2

/-- The p that attempt `k ≥ 1` draws (R95). -/
def attemptP (draw : Nat → RngState → Nat × RngState) (L : Nat) (g : RngState) (k : Nat) : Nat :=
  (draw (L + k) (rngAfter draw L g (k - 1))).1

/-- The q that attempt `k ≥ 1` draws, from the state the draw of p returned (R91, R95). -/
def attemptQ (draw : Nat → RngState → Nat × RngState) (L : Nat) (g : RngState) (k : Nat) : Nat :=
  (draw (L - k) (draw (L + k) (rngAfter draw L g (k - 1))).2).1

/-- The acceptance test of R93, in its own words: the difference of `p` and `q` exceeds the greatest `r` with
`r · r ≤ (p · q) div 2`. -/
def FermatAccepts (p q : Nat) : Prop :=
  ∀ r, r * r ≤ p * q / 2 → r < absdiff p q

/-- The two output records of KEYGEN for the pair (p, q): every field has the value of R159. -/
structure RecordsOf (p q : Nat) (pub : PublicKey) (priv : PrivateKey) : Prop where
  e : pub.e = 65537
  public_n : pub.n = p * q
  montgomery_bitLength : pub.montgomeryBitLength = bitLength (p * q)
  montgomery_rr : pub.montgomeryRr = 2 ^ (2 * bitLength (p * q)) % (p * q)
  blockSize : pub.blockSize = bitLength (p * q) / 8
  d_inverse : 65537 * priv.d % ((p - 1) * (q - 1)) = 1
  d_range : priv.d < (p - 1) * (q - 1)
  private_n : priv.n = p * q
  p_eq : priv.p = p
  q_eq : priv.q = q
  larger : q < p
  dp : priv.dp = priv.d % (p - 1)
  dq : priv.dq = priv.d % (q - 1)
  qInv_inverse : priv.qInvModP * q % p = 1
  qInv_range : priv.qInvModP < p
  barrettP_shift : priv.barrettPShift = 2 * bitLength p
  barrettP_factor : priv.barrettPFactor = 2 ^ (2 * bitLength p) / p
  barrettQ_shift : priv.barrettQShift = 2 * bitLength q
  barrettQ_factor : priv.barrettQFactor = 2 ^ (2 * bitLength q) / q

end Sys2Proof
end

