-- ==== Sys2Proof/Certificates/Slice0/Obligations.lean ====
section
/-! DEFINITION. The statements for the provers, made from the numbered rules of `spec/`. -/

open Sys2Proof
open Sys2Proof.Machine

/-! ### Reset -/

/-- R201: what a reset leaves, and what the host then reads. -/
def Obligations.ResetLeavesTheStatedState : Prop :=
  ∀ t : State, (t = State.reset ∨ ∃ s : State, t = s.resetEngine) →
    (∀ r : Reg, t.reg r = 0) ∧ t.execState = .idle ∧ t.done = false ∧ t.acc = false ∧ t.fcode = 0 ∧
      t.cmd = 0 ∧ t.maxatt = Config.maxattReset ∧ t.att = 0 ∧ (∃ seed, t.rng = Config.initRng seed) ∧
      t.busRead Config.W 0x008 = .data 0x00000000 ∧
      t.busRead Config.W 0x010 = .data 0x00000000 ∧
      t.busRead Config.W 0x018 = .data 0x00000000 ∧
      t.busRead Config.W 0x014 = .data Config.maxattReset ∧
      t.busRead Config.W 0x000 = .data 0x47484501 ∧
      t.busRead Config.W 0x004 = .data (BitVec.ofNat 32 (Config.W + 0x100000)) ∧
      ∀ (r : Reg) (j : Nat), j < Config.W / 32 →
        t.busRead Config.W (0x1000 + r.val * (Config.W / 8) + 4 * j) = .data 0x00000000

/-- R200: the two causes of a reset, their identical effect, in every execution state. -/
def Obligations.ResetHasTwoCausesInEveryState : Prop :=
  ∀ s : State,
    (s.turns.head? = some .reset → step s = .next s.dropTurn.resetEngine) ∧
    (accessNext s (.write (Config.base + 0x00C) 1) →
      step s = .next (s.dropTurn.resetEngine.respond .ok))

/-! ### The step -/

/-- R31, R79: the engine's step runs the command CMD decodes to, and nothing else, exactly when STATE = BUSY. -/
def Obligations.StepRunsTheDecodedCommand : Prop :=
  ∀ s : State, engineNext s →
    (s.execState = .busy → ∀ i, decode s.cmd = .ok i → step s = exec i s.dropTurn) ∧
    (s.execState ≠ .busy → step s = .next s.dropTurn)

/-- R31, R176: Complete ends the command, normally with DONE and IDLE, or with a fault entry. -/
def Obligations.CompleteEndsIdleOrFaulted : Prop :=
  ∀ s : State, s.execState = .busy → engineNext s → ∃ t, step s = .next t ∧
    ((t.execState = .idle ∧ t.done = true ∧ t.fcode = s.fcode ∧ KeepsFixed s.dropTurn t) ∨
      ∃ c, FaultEntered c s.dropTurn t)

/-- There is no stop: every state has a next one. R208 and the sentence after U20 say so of commands and of admitted
accesses. The rest is the model's choice: a refused access is a next state in which the host has BusError (log entry 9),
a turn of an idle engine changes nothing but the list of turns (log entries 5 and 6), and no step of the model ends in a
fault or a refusal (log entry 21). -/
def Obligations.EveryStepAnswersANextState : Prop :=
  ∀ s : State, ∃ t, step s = .next t

/-- R208: whatever the host and the platform do meanwhile, a BUSY period ends. -/
def Obligations.EveryBusyPeriodEnds : Prop :=
  ∀ s : State, s.execState = .busy →
    ∃ k ≤ s.turns.length + 1, ∃ t : State, Sys2Proof.core.run k s = .next t ∧ t.execState ≠ .busy

/-! ### The commands: what each writes, where it completes, where it faults -/

/-- R150. -/
def Obligations.LiLoadsTheImmediate : Prop :=
  (∀ w : Word, w &&& 0x000000FF = 0x00000001 → decode w = .ok (.li (fieldRd w) (fieldImm20 w))) ∧
  ∀ (rd : Reg) (imm20 : BitVec 20) (s : State), ∃ t, exec (.li rd imm20) s = .next t ∧
    t.reg rd = imm20.toNat ∧ t.reg rd < 2 ^ Config.W ∧ Retires [rd] s t ∧ KeepsFlags s t

/-- R120, with `bitLength` in the words of R13. -/
def Obligations.BitlenWritesTheBitLength : Prop :=
  (∀ w : Word, w &&& 0xFFFF00FF = 0x00000010 → decode w = .ok (.bitlen (fieldRd w) (fieldRs1 w))) ∧
  ∀ (rd rs1 : Reg) (s : State), ∃ t, exec (.bitlen rd rs1) s = .next t ∧
    (∀ k, t.reg rd ≤ k ↔ s.reg rs1 < 2 ^ k) ∧ (s.reg rs1 < 2 ^ Config.W → t.reg rd ≤ Config.W) ∧
    Retires [rd] s t ∧ KeepsFlags s t

/-- R122. -/
def Obligations.MontWritesTheMontgomeryConstants : Prop :=
  (∀ w : Word, w &&& 0xFF0F00FF = 0x00000011 →
    decode w = .ok (.mont (fieldRd w) (fieldRk w) (fieldRs1 w))) ∧
  ∀ (rd rk rs1 : Reg) (s : State),
    (s.reg rs1 = 0 → Faults (.mont rd rk rs1) s .badOperand) ∧
    (s.reg rs1 ≠ 0 → ∃ t, exec (.mont rd rk rs1) s = .next t ∧
      t.reg rd = 2 ^ (2 * bitLength (s.reg rs1)) % s.reg rs1 ∧
      (rk ≠ rd → t.reg rk = bitLength (s.reg rs1)) ∧ Retires [rk, rd] s t ∧ KeepsFlags s t)

/-- R123: MONT's first constant is what BITLEN writes. -/
def Obligations.MontBitLengthIsBitlen : Prop :=
  ∀ (rd rk rs1 : Reg) (s t u : State), rd ≠ rk → exec (.mont rd rk rs1) s = .next t → t.execState = .idle →
    exec (.bitlen rk rs1) s = .next u → t.reg rk = u.reg rk

/-- R111. -/
def Obligations.BarrettWritesTheBarrettConstants : Prop :=
  (∀ w : Word, w &&& 0xFF0F00FF = 0x00000012 →
    decode w = .ok (.barrett (fieldRd w) (fieldRk w) (fieldRs1 w))) ∧
  ∀ (rd rk rs1 : Reg) (s : State),
    (s.reg rs1 = 0 → Faults (.barrett rd rk rs1) s .badOperand) ∧
    (s.reg rs1 ≠ 0 → 2 ^ Config.W ≤ 2 ^ (2 * bitLength (s.reg rs1)) / s.reg rs1 →
      Faults (.barrett rd rk rs1) s .rangeOverflow) ∧
    (s.reg rs1 ≠ 0 → 2 ^ (2 * bitLength (s.reg rs1)) / s.reg rs1 < 2 ^ Config.W →
      ∃ t, exec (.barrett rd rk rs1) s = .next t ∧
        t.reg rd = 2 ^ (2 * bitLength (s.reg rs1)) / s.reg rs1 ∧
        (rk ≠ rd → t.reg rk = 2 * bitLength (s.reg rs1)) ∧ Retires [rk, rd] s t ∧ KeepsFlags s t)

/-- R112: exactly which moduli make BARRETT overflow, by bit length. -/
def Obligations.BarrettOverflowsExactlyAsTabulated : Prop :=
  ∀ (rd rk rs1 : Reg) (s : State), s.reg rs1 ≠ 0 → s.reg rs1 < 2 ^ Config.W →
    (Faults (.barrett rd rk rs1) s .rangeOverflow ↔
      s.reg rs1 = 2 ^ (Config.W - 2) ∨ bitLength (s.reg rs1) = Config.W)

/-- R130, with `inv` in the words of R17. -/
def Obligations.ModinvWritesTheInverse : Prop :=
  (∀ w : Word, w &&& 0xFFF000FF = 0x00000013 →
    decode w = .ok (.modinv (fieldRd w) (fieldRs1 w) (fieldRs2 w))) ∧
  ∀ (rd rs1 rs2 : Reg) (s : State),
    (s.reg rs2 = 0 → Faults (.modinv rd rs1 rs2) s .badOperand) ∧
    (s.reg rs2 ≠ 0 → Nat.gcd (s.reg rs1) (s.reg rs2) ≠ 1 →
      Faults (.modinv rd rs1 rs2) s .arithmeticInvariantViolation) ∧
    (s.reg rs2 ≠ 0 → Nat.gcd (s.reg rs1) (s.reg rs2) = 1 →
      ∃ t, exec (.modinv rd rs1 rs2) s = .next t ∧ t.reg rd < s.reg rs2 ∧
        s.reg rs1 * t.reg rd % s.reg rs2 = 1 % s.reg rs2 ∧ Retires [rd] s t ∧ KeepsFlags s t)

/-- R17, R130: the inverse depends on the residue of the value alone, so a value not smaller than the modulus is
reduced. -/
def Obligations.ModinvReducesItsOperand : Prop :=
  ∀ (rd rs1 rs2 : Reg) (s s' t t' : State), s.reg rs2 = s'.reg rs2 →
    s.reg rs1 % s.reg rs2 = s'.reg rs1 % s.reg rs2 →
    exec (.modinv rd rs1 rs2) s = .next t → exec (.modinv rd rs1 rs2) s' = .next t' →
    t.execState = t'.execState ∧ (t.execState = .idle → t.reg rd = t'.reg rd)

/-- R131. -/
def Obligations.ModdecReducesModuloPMinusOne : Prop :=
  (∀ w : Word, w &&& 0xFFF000FF = 0x00000014 →
    decode w = .ok (.moddec (fieldRd w) (fieldRs1 w) (fieldRs2 w))) ∧
  ∀ (rd rs1 rs2 : Reg) (s : State),
    (s.reg rs2 ≤ 1 → Faults (.moddec rd rs1 rs2) s .badOperand) ∧
    (2 ≤ s.reg rs2 → ∃ t, exec (.moddec rd rs1 rs2) s = .next t ∧
      t.reg rd = s.reg rs1 % (s.reg rs2 - 1) ∧ Retires [rd] s t ∧ KeepsFlags s t)

/-- R151. -/
def Obligations.PhiMultipliesThePredecessors : Prop :=
  (∀ w : Word, w &&& 0xFFF000FF = 0x00000015 →
    decode w = .ok (.phi (fieldRd w) (fieldRs1 w) (fieldRs2 w))) ∧
  ∀ (rd rs1 rs2 : Reg) (s : State),
    (s.reg rs1 = 0 ∨ s.reg rs2 = 0 → Faults (.phi rd rs1 rs2) s .badOperand) ∧
    (s.reg rs1 ≠ 0 → s.reg rs2 ≠ 0 → 2 ^ Config.W ≤ (s.reg rs1 - 1) * (s.reg rs2 - 1) →
      Faults (.phi rd rs1 rs2) s .rangeOverflow) ∧
    (s.reg rs1 ≠ 0 → s.reg rs2 ≠ 0 → (s.reg rs1 - 1) * (s.reg rs2 - 1) < 2 ^ Config.W →
      ∃ t, exec (.phi rd rs1 rs2) s = .next t ∧ t.reg rd = (s.reg rs1 - 1) * (s.reg rs2 - 1) ∧
        Retires [rd] s t ∧ KeepsFlags s t)

/-- R94, with the threshold in the words of R15 and the verdict in those of R93. -/
def Obligations.FermatTestsThePair : Prop :=
  (∀ w : Word, w &&& 0xFF0000FF = 0x00000016 →
    decode w = .ok (.fermat (fieldRd w) (fieldRk w) (fieldRs1 w) (fieldRs2 w))) ∧
  ∀ (rd rk rs1 rs2 : Reg) (s : State),
    (2 ^ Config.W ≤ s.reg rs1 * s.reg rs2 → Faults (.fermat rd rk rs1 rs2) s .rangeOverflow) ∧
    (s.reg rs1 * s.reg rs2 < 2 ^ Config.W → ∃ t, exec (.fermat rd rk rs1 rs2) s = .next t ∧
      t.reg rd = s.reg rs1 * s.reg rs2 ∧
      (rk ≠ rd → ∀ r, r ≤ t.reg rk ↔ r * r ≤ s.reg rs1 * s.reg rs2 / 2) ∧
      (t.acc = true ↔ FermatAccepts (s.reg rs1) (s.reg rs2)) ∧
      Retires [rk, rd] s t ∧ t.att = s.att ∧ t.rng = s.rng)

/-- R95: PRIMEGEN is the bounded retry loop. Attempt `k` draws `attemptP … k` and `attemptQ … k`; the first attempt
that is accepted, `k ≤ MAXATT` and `k ≤ L − 2`, is delivered; when all of them are rejected the fault is InvalidInput
if the lengths run out first or together with the attempts, else PrimeGenerationExhaustion. -/
def Obligations.PrimegenRunsTheBoundedRetryLoop : Prop :=
  (∀ w : Word, w &&& 0xF00F00FF = 0x00000017 →
    decode w = .ok (.primegen (fieldRd w) (fieldRk w) (fieldRn w) (fieldRs1 w))) ∧
  ∀ (rd rk rn rs1 : Reg) (s : State),
    (Config.W < 2 * s.reg rs1 → Faults (.primegen rd rk rn rs1) s .rangeOverflow) ∧
    (2 * s.reg rs1 ≤ Config.W →
      (∀ k, 1 ≤ k → k ≤ s.maxatt.toNat → k + 2 ≤ s.reg rs1 →
        ¬ FermatAccepts (attemptP Config.drawPrime (s.reg rs1) s.rng k)
          (attemptQ Config.drawPrime (s.reg rs1) s.rng k)) →
      (s.reg rs1 - 2 ≤ s.maxatt.toNat → Faults (.primegen rd rk rn rs1) s .invalidInput) ∧
      (s.maxatt.toNat < s.reg rs1 - 2 → Faults (.primegen rd rk rn rs1) s .primeGenerationExhaustion)) ∧
    (2 * s.reg rs1 ≤ Config.W →
      ∀ k, 1 ≤ k → k ≤ s.maxatt.toNat → k + 2 ≤ s.reg rs1 →
        FermatAccepts (attemptP Config.drawPrime (s.reg rs1) s.rng k)
          (attemptQ Config.drawPrime (s.reg rs1) s.rng k) →
        (∀ j, 1 ≤ j → j < k → ¬ FermatAccepts (attemptP Config.drawPrime (s.reg rs1) s.rng j)
          (attemptQ Config.drawPrime (s.reg rs1) s.rng j)) →
        ∃ t, exec (.primegen rd rk rn rs1) s = .next t ∧
          t.reg rd = attemptP Config.drawPrime (s.reg rs1) s.rng k ∧
          (rk ≠ rd → t.reg rk = attemptQ Config.drawPrime (s.reg rs1) s.rng k) ∧
          (rn ≠ rk → rn ≠ rd → t.reg rn = attemptP Config.drawPrime (s.reg rs1) s.rng k *
            attemptQ Config.drawPrime (s.reg rs1) s.rng k) ∧
          t.att.toNat = k ∧ t.rng = rngAfter Config.drawPrime (s.reg rs1) s.rng k ∧
          t.acc = s.acc ∧ Retires [rn, rk, rd] s t)

/-- R96: the complete outcome table of PRIMEGEN, which follows from DrawPrime's contract: the first attempt is always
accepted. -/
def Obligations.PrimegenOutcomeTable : Prop :=
  ∀ (rd rk rn rs1 : Reg) (s : State),
    (Config.W < 2 * s.reg rs1 → Faults (.primegen rd rk rn rs1) s .rangeOverflow) ∧
    (s.reg rs1 ≤ 2 → Faults (.primegen rd rk rn rs1) s .invalidInput) ∧
    (3 ≤ s.reg rs1 → 2 * s.reg rs1 ≤ Config.W → s.maxatt = 0 →
      Faults (.primegen rd rk rn rs1) s .primeGenerationExhaustion) ∧
    (3 ≤ s.reg rs1 → 2 * s.reg rs1 ≤ Config.W → s.maxatt ≠ 0 →
      ∃ t, exec (.primegen rd rk rn rs1) s = .next t ∧ t.att = 1 ∧ t.acc = s.acc ∧
        Retires [rn, rk, rd] s t ∧
        ∃ p q, t.reg rd = p ∧ (rk ≠ rd → t.reg rk = q) ∧ (rn ≠ rk → rn ≠ rd → t.reg rn = p * q) ∧
          bitLength p = s.reg rs1 + 1 ∧ bitLength q = s.reg rs1 - 1 ∧
          (bitLength (p * q) = 2 * s.reg rs1 - 1 ∨ bitLength (p * q) = 2 * s.reg rs1) ∧
          p * q < 2 ^ Config.W ∧ Config.prp p = true ∧ Config.prp q = true)

/-- R90: what holds of the registers after a PRIMEGEN that completes without fault. -/
def Obligations.GeneratedPairInvariant : Prop :=
  ∀ (rd rk rn rs1 : Reg) (s t : State), rd ≠ rk → rd ≠ rn → rk ≠ rn →
    exec (.primegen rd rk rn rs1) s = .next t → t.execState = .idle →
    t.reg rn = t.reg rd * t.reg rk ∧ Config.prp (t.reg rd) = true ∧ Config.prp (t.reg rk) = true ∧
      bitLength (t.reg rd) = s.reg rs1 + t.att.toNat ∧ bitLength (t.reg rk) + t.att.toNat = s.reg rs1 ∧
      1 ≤ t.att.toNat ∧ t.att.toNat ≤ t.maxatt.toNat ∧ t.att.toNat + 2 ≤ s.reg rs1 ∧
      FermatAccepts (t.reg rd) (t.reg rk) ∧ t.reg rk < t.reg rd

/-- R92: a prime of fewer than two bits is never requested: the answers to such requests do not matter. -/
def Obligations.PrimegenNeverRequestsFewerThanTwoBits : Prop :=
  ∀ (W maxatt L : Nat) (draw draw' : Nat → RngState → Nat × RngState) (g : RngState),
    (∀ b g', 2 ≤ b → draw b g' = draw' b g') →
    primePair W maxatt draw L g = primePair W maxatt draw' L g

/-! ### Faults -/

/-- R178: a word that decodes to no command faults with IllegalCommand, code 6, when the engine executes it. -/
def Obligations.IllegalWordRaisesIllegalCommand : Prop :=
  ∀ s : State, s.execState = .busy → engineNext s → (∀ i, decode s.cmd ≠ .ok i) →
    ∃ t, step s = .next t ∧ FaultEntered .illegalCommand s.dropTurn t ∧ t.fcode = 6

/-- R171: which fault codes each command can record. -/
def Obligations.EachCommandRecordsOnlyItsFaultCodes : Prop :=
  ∀ (i : Instr) (s t : State), exec i s = .next t → t.execState = .faulted →
    t.fcode.toNat ∈ (match i with
      | .li _ _ => []
      | .bitlen _ _ => []
      | .mont _ _ _ => [4]
      | .barrett _ _ _ => [4, 5]
      | .modinv _ _ _ => [4, 2]
      | .moddec _ _ _ => [4]
      | .phi _ _ _ => [4, 5]
      | .fermat _ _ _ _ => [5]
      | .primegen _ _ _ _ => [5, 1, 3])

/-- R176, R206: after a fault the host can read nothing of the operands and results: two runs of the same command word
that fault with the same code, whatever the registers, flags and random state held, answer every access alike. -/
def Obligations.FaultedEngineRevealsNothing : Prop :=
  ∀ s s' t t' : State, s.cmd = s'.cmd → s.maxatt = s'.maxatt →
    s.complete = .next t → s'.complete = .next t' → t.execState = .faulted → t'.execState = .faulted →
    t.fcode = t'.fcode → ∀ a : BusAccess, (t.busAccess a).response = (t'.busAccess a).response

/-- R30, R181: FAULTED is left only by reset, by way of the whole transition table of STATE. -/
def Obligations.ExecutionStateTransitions : Prop :=
  ∀ s t : State, step s = .next t → t.execState ≠ s.execState →
    (s.execState = .idle ∧ t.execState = .busy ∧
      accessNext s (.write (Config.base + 0x010) t.cmd)) ∨
    (s.execState = .busy ∧ engineNext s ∧ (t.execState = .idle ∨ t.execState = .faulted)) ∨
    (resetsNext s ∧ t.execState = .idle)

/-! ### Invariants -/

/-- Every step keeps the invariant: registers fit, DONE and FCODE agree with STATE, FAULTED is cleared. -/
def Obligations.EngineInvariantIsKept : Prop :=
  ∀ s t : State, EngineInv s → step s = .next t → EngineInv t

/-- The invariant holds after reset. -/
def Obligations.EngineInvariantHoldsAtReset : Prop :=
  EngineInv State.reset

/-- R97: randomness is consumed by PRIMEGEN only; beside it a reset changes the random state, and nothing else. (Whether
a faulting PRIMEGEN changes it is left open, as R95 leaves it.) -/
def Obligations.RandomStateChangesOnlyByPrimegenOrReset : Prop :=
  ∀ s t : State, step s = .next t → t.rng ≠ s.rng →
    resetsNext s ∨ (s.execState = .busy ∧ engineNext s ∧
      ∃ rd rk rn rs1, decode s.cmd = .ok (.primegen rd rk rn rs1))

/-- R29: ACC is written by a FERMAT that completes; a fault and a reset clear it; nothing else changes it. -/
def Obligations.AccChangesOnlyByFermatFaultOrReset : Prop :=
  ∀ s t : State, step s = .next t → t.acc ≠ s.acc →
    (s.execState = .busy ∧ engineNext s ∧ t.execState = .idle ∧
      ∃ rd rk rs1 rs2, decode s.cmd = .ok (.fermat rd rk rs1 rs2)) ∨
    (s.execState = .busy ∧ engineNext s ∧ t.execState = .faulted ∧ t.acc = false) ∨
    (resetsNext s ∧ t.acc = false)

/-- R33, R34, R35: when CMD, MAXATT and ATT change. -/
def Obligations.ControlRegistersChangeOnlyAsStated : Prop :=
  ∀ s t : State, step s = .next t →
    (t.cmd ≠ s.cmd → (s.execState = .idle ∧ accessNext s (.write (Config.base + 0x010) t.cmd)) ∨
      (resetsNext s ∧ t.cmd = 0)) ∧
    (t.maxatt ≠ s.maxatt → (s.execState = .idle ∧ accessNext s (.write (Config.base + 0x014) t.maxatt)) ∨
      (resetsNext s ∧ t.maxatt = Config.maxattReset)) ∧
    (t.att ≠ s.att → (s.execState = .busy ∧ engineNext s ∧ t.execState = .idle ∧
        ∃ rd rk rn rs1, decode s.cmd = .ok (.primegen rd rk rn rs1)) ∨
      (s.execState = .busy ∧ engineNext s ∧ t.execState = .faulted ∧ t.att = 0) ∨
      (resetsNext s ∧ t.att = 0))

/-- R23: a general register changes only by the command in execution writing it, a word write of the host in IDLE,
a fault or a reset. -/
def Obligations.RegistersChangeOnlyAsStated : Prop :=
  ∀ (s t : State) (r : Reg), step s = .next t → t.reg r ≠ s.reg r →
    (s.execState = .busy ∧ engineNext s ∧ t.execState = .idle ∧
      ∃ i, decode s.cmd = .ok i ∧ r ∈ destinations i) ∨
    (s.execState = .busy ∧ engineNext s ∧ t.execState = .faulted ∧ t.reg r = 0) ∨
    (s.execState = .idle ∧ ∃ j v, j < Config.W / 32 ∧
      accessNext s (.write (Config.base + (0x1000 + r.val * (Config.W / 8) + 4 * j)) v)) ∨
    (resetsNext s ∧ t.reg r = 0)

/-- R37, R97: what a command does depends on its source registers alone, and for PRIMEGEN on MAXATT and the random
state besides: how it ends, the fault code and what the fault leaves, the destinations, FERMAT's ACC (R29, R94),
PRIMEGEN's ATT and random state; of these three a command leaves alone what it does not write. -/
def Obligations.CommandsDependOnlyOnTheirSources : Prop :=
  ∀ (i : Instr) (s s' t t' : State), (∀ r ∈ sources i, s.reg r = s'.reg r) →
    (usesRandom i = true → s.maxatt = s'.maxatt ∧ s.rng = s'.rng) →
    exec i s = .next t → exec i s' = .next t' →
    t.execState = t'.execState ∧ t.done = t'.done ∧
      (t.execState = .faulted → t.fcode = t'.fcode ∧ (∀ r : Reg, t.reg r = t'.reg r) ∧
        t.acc = t'.acc ∧ t.att = t'.att) ∧
      (t.execState = .idle → (∀ r ∈ destinations i, t.reg r = t'.reg r) ∧
        (writesAcc i = true → t.acc = t'.acc) ∧
        (writesAcc i = false → t.acc = s.acc ∧ t'.acc = s'.acc) ∧
        (usesRandom i = true → t.att = t'.att ∧ t.rng = t'.rng) ∧
        (usesRandom i = false → t.att = s.att ∧ t'.att = s'.att ∧ t.rng = s.rng ∧ t'.rng = s'.rng))

/-! ### Encoding -/

/-- R71, R73, R79: decoding the word of a command gives the command back, with every operand at every value. -/
def Obligations.DecodeOfEncodeIsTheCommand : Prop :=
  ∀ i : Instr, decode (encode i) = .ok i

/-- R73, R75: a legal word is the word of the one command it decodes to: no bit of it is ignored. -/
def Obligations.EncodeOfDecodeIsTheWord : Prop :=
  ∀ (w : Word) (i : Instr), decode w = .ok i → encode i = w

/-- R73: at most one row of the table matches any word. -/
def Obligations.OpcodeRowsAreDisjoint : Prop :=
  opcodeRows.Pairwise fun a b => ∀ w : Word, ¬ (a.selects w = true ∧ b.selects w = true)

/-- R75: a word is illegal exactly when its opcode is reserved or a field that must be 0 is not. -/
def Obligations.IllegalWordsByTheirFields : Prop :=
  ∀ w : Word, (∃ i, decode w = .ok i) ↔ (fieldsOf w).wellFormed = true

/-- R71, R79: each field is the stated bits of the word. -/
def Obligations.FieldsAreTheStatedBits : Prop :=
  ∀ w : Word, (fieldOpcode w).toNat = w.toNat % 2 ^ 8 ∧
    (fieldRd w).val = w.toNat / 2 ^ 8 % 2 ^ 4 ∧ (fieldRs1 w).val = w.toNat / 2 ^ 12 % 2 ^ 4 ∧
    (fieldRs2 w).val = w.toNat / 2 ^ 16 % 2 ^ 4 ∧ (fieldRk w).val = w.toNat / 2 ^ 20 % 2 ^ 4 ∧
    (fieldRn w).val = w.toNat / 2 ^ 24 % 2 ^ 4 ∧ (fieldImm20 w).toNat = w.toNat / 2 ^ 12

/-- R77: the nine sample words of the spec decode to the commands it writes beside them. -/
def Obligations.SampleWordsDecode : Prop :=
  decode 0x10001101 = .ok (.li 1 65537) ∧ decode 0x00002310 = .ok (.bitlen 3 2) ∧
  decode 0x00302411 = .ok (.mont 4 3 2) ∧ decode 0x00B06C12 = .ok (.barrett 12 11 6) ∧
  decode 0x00067A13 = .ok (.modinv 10 7 6) ∧ decode 0x00065814 = .ok (.moddec 8 5 6) ∧
  decode 0x00076F15 = .ok (.phi 15 6 7) ∧ decode 0x00521416 = .ok (.fermat 4 5 1 2) ∧
  decode 0x02700617 = .ok (.primegen 6 7 2 0)

/-! ### The register window -/

/-- R26, R27, R58: ID and PARAM read as their constants in every state. -/
def Obligations.IdAndParamReadAsConstants : Prop :=
  ∀ s : State, (s.busAccess (.read (Config.base + 0x000))).response = some (.data 0x47484501) ∧
    ∃ v : Word, (s.busAccess (.read (Config.base + 0x004))).response = some (.data v) ∧
      v.toNat % 2 ^ 16 = Config.W ∧ v.toNat / 2 ^ 16 % 2 ^ 8 = 16 ∧ v.toNat / 2 ^ 24 = 0

/-- R28: the fields of STATUS as the host reads it. -/
def Obligations.StatusShowsTheState : Prop :=
  ∀ s : State, EngineInv s →
    ∃ v : Word, (s.busAccess (.read (Config.base + 0x008))).response = some (.data v) ∧
      (v.getLsbD 0 = true ↔ s.execState = .busy) ∧ v.getLsbD 1 = s.done ∧
      (v.getLsbD 2 = true ↔ s.execState = .faulted) ∧ v.getLsbD 3 = s.acc ∧
      v.extractLsb' 4 4 = 0 ∧ v.extractLsb' 8 4 = s.fcode ∧ v.extractLsb' 12 20 = 0 ∧
      (s.execState ≠ .faulted → v.extractLsb' 8 4 = 0) ∧
      ¬ (v.getLsbD 0 = true ∧ v.getLsbD 2 = true) ∧
      (v.getLsbD 0 = true ∨ v.getLsbD 2 = true → v.getLsbD 1 = false)

/-- R51, R58: the admission table, for every aligned 32-bit access inside the window. -/
def Obligations.AdmissionTable : Prop :=
  ∀ (s : State) (off : Nat), off < 0x1000 + 2 * Config.W → off % 4 = 0 →
    ((∃ v, (s.busAccess (.read (Config.base + off))).response = some (.data v)) ↔
      off ∈ [0x000, 0x004, 0x008, 0x00C] ∨
        (s.execState ≠ .busy ∧ (off ∈ [0x010, 0x014, 0x018] ∨ 0x1000 ≤ off))) ∧
    ((¬ ∃ v, (s.busAccess (.read (Config.base + off))).response = some (.data v)) →
      (s.busAccess (.read (Config.base + off))).response = some .busError) ∧
    (∀ v : Word, ((s.busAccess (.write (Config.base + off) v)).response = some .ok ↔
      (off = 0x00C ∧ (v = 0 ∨ v = 1)) ∨
        (s.execState = .idle ∧ (off ∈ [0x010, 0x014] ∨ 0x1000 ≤ off)))) ∧
    (∀ v : Word, (s.busAccess (.write (Config.base + off) v)).response ≠ some .ok →
      (s.busAccess (.write (Config.base + off) v)).response = some .busError) ∧
    (off = 0x00C → (s.busAccess (.read (Config.base + off))).response = some (.data 0)) ∧
    (EngineInv s → s.execState = .faulted → (off = 0x018 ∨ 0x1000 ≤ off) →
      (s.busAccess (.read (Config.base + off))).response = some (.data 0)) ∧
    (s.execState ≠ .busy → (s.busAccess (.read (Config.base + 0x010))).response = some (.data s.cmd))

/-- R56: an access that is not an aligned 32-bit one is refused. That an access of another width which begins inside the
window and straddles its end is refused too is deduced (log entry 10): R56 does not speak of it. -/
def Obligations.OnlyAlignedWordsAreAdmitted : Prop :=
  ∀ (s : State) (off : Nat) (v : Word) (width : OddWidth), off < 0x1000 + 2 * Config.W →
    (s.busAccess (.odd width (Config.base + off))).response = some .busError ∧
    (off % 4 ≠ 0 → (s.busAccess (.read (Config.base + off))).response = some .busError ∧
      (s.busAccess (.write (Config.base + off) v)).response = some .busError)

/-- R57, R64: a refused access changes no state of the engine. -/
def Obligations.RefusedAccessChangesNothing : Prop :=
  ∀ (s : State) (a : BusAccess), (s.busAccess a).response = some .busError →
    SameEngine s (s.busAccess a) ∧ (s.busAccess a).turns = s.turns

/-- R51, U14: outside the window the engine does not respond and does not change. That the host then has the answer
`outsideWindow` is the model's mark (log entry 8, DESIGN CHOICE). That the first byte decides, so that an access which
begins below BASE and reaches into the window (64 bits or a burst at BASE − 4, 32 bits at BASE − 2) is outside too, is
deduced (log entry 10); read plainly, R56 refuses it. -/
def Obligations.OutsideTheWindowTheEngineIsSilent : Prop :=
  ∀ (s : State) (a : BusAccess) (addr : Nat),
    (a = .read addr ∨ (∃ v, a = .write addr v) ∨ ∃ width, a = .odd width addr) →
    (addr < Config.base ∨ Config.base + (0x1000 + 2 * Config.W) ≤ addr) →
    (s.busAccess a).response = some .outsideWindow ∧ SameEngine s (s.busAccess a)

/-- R52, R59: a read, admitted or not, changes nothing but the host's answer. -/
def Obligations.ReadsHaveNoSideEffects : Prop :=
  ∀ (s : State) (addr : Nat), SameEngine s (s.busAccess (.read addr)) ∧
    (s.busAccess (.read addr)).turns = s.turns ∧
    ((s.busAccess (.read addr)).busAccess (.read addr)).response = (s.busAccess (.read addr)).response

/-- R54: reading and writing one word of a general register. -/
def Obligations.RegisterWordsReadAndWrite : Prop :=
  ∀ (s : State) (i : Reg) (j : Nat) (v : Word), s.reg i < 2 ^ Config.W → j < Config.W / 32 →
    (s.execState ≠ .busy → ∃ u : Word,
      (s.busAccess (.read (Config.base + (0x1000 + i.val * (Config.W / 8) + 4 * j)))).response = some (.data u) ∧
        u.toNat = s.reg i / 2 ^ (32 * j) % 2 ^ 32) ∧
    (s.execState = .idle → ∃ t,
      s.busAccess (.write (Config.base + (0x1000 + i.val * (Config.W / 8) + 4 * j)) v) = t ∧
      t.response = some .ok ∧
      t.reg i = s.reg i - s.reg i / 2 ^ (32 * j) % 2 ^ 32 * 2 ^ (32 * j) + v.toNat * 2 ^ (32 * j) ∧
      t.reg i / 2 ^ (32 * j) % 2 ^ 32 = v.toNat ∧
      (∀ k, k ≠ j → t.reg i / 2 ^ (32 * k) % 2 ^ 32 = s.reg i / 2 ^ (32 * k) % 2 ^ 32) ∧
      t.reg i < 2 ^ Config.W ∧ (∀ r : Reg, r ≠ i → t.reg r = s.reg r) ∧
      t.execState = .idle ∧ t.done = s.done ∧ KeepsFlags s t ∧ t.cmd = s.cmd ∧ t.maxatt = s.maxatt)

/-- R55: the window is little-endian, byte by byte. -/
def Obligations.WindowIsLittleEndian : Prop :=
  ∀ (s : State) (i : Reg) (b : Nat), s.execState ≠ .busy → b < Config.W / 8 →
    ∃ u : Byte, s.windowByte Config.W (0x1000 + i.val * (Config.W / 8) + b) = some u ∧
      u.toNat = s.reg i / 2 ^ (8 * b) % 2 ^ 8

/-- R33, R59: a CMD write in IDLE latches any word, legal or not, and launches it; the registers, ACC, ATT, `rng`, FCODE
and MAXATT are unchanged. -/
def Obligations.CmdWriteLaunchesTheCommand : Prop :=
  ∀ (s : State) (w : Word), s.execState = .idle →
    ∃ t, s.busAccess (.write (Config.base + 0x010) w) = t ∧ t.response = some .ok ∧ t.cmd = w ∧
      t.done = false ∧ t.execState = .busy ∧ (∀ r : Reg, t.reg r = s.reg r) ∧ KeepsFlags s t ∧
      t.fcode = s.fcode ∧ t.maxatt = s.maxatt

/-- R32: what the three kinds of CTRL write do, and what CTRL reads as, in every execution state. -/
def Obligations.CtrlWrites : Prop :=
  ∀ s : State,
    s.busAccess (.write (Config.base + 0x00C) 1) = s.resetEngine.respond .ok ∧
    s.busAccess (.write (Config.base + 0x00C) 0) = s.respond .ok ∧
    (∀ v : Word, v ≠ 0 → v ≠ 1 → s.busAccess (.write (Config.base + 0x00C) v) = s.respond .busError) ∧
    s.busAccess (.read (Config.base + 0x00C)) = s.respond (.data 0)

/-- R34: every value may be written to MAXATT in IDLE and reads back; nothing else of the engine changes, and no turn is
taken. -/
def Obligations.MaxattIsWritableInIdle : Prop :=
  ∀ (s : State) (v : Word), s.execState = .idle →
    ∃ t, s.busAccess (.write (Config.base + 0x014) v) = t ∧ t.response = some .ok ∧ t.maxatt = v ∧
      (t.busAccess (.read (Config.base + 0x014))).response = some (.data v) ∧
      SameEngine s { t with maxatt := s.maxatt } ∧ t.turns = s.turns

/-- R62: while a command executes, no accesses of the host, short of a reset, change its word, its operands or
anything else of the engine. -/
def Obligations.CommandAndOperandsAreFixedWhileBusy : Prop :=
  ∀ (s : State) (accesses : List BusAccess), s.execState = .busy → (∀ a ∈ accesses, ¬ isResetWrite a) →
    SameEngine s (accesses.foldl (fun u a => u.busAccess a) s)

/-- R60, R204: a host that writes a command and reads STATUS after Complete gets BUSY = 0, and DONE = 1 when FAULT = 0;
the engine has then run exactly the command written. -/
def Obligations.PollSeesTheCommandEnd : Prop :=
  ∀ (s : State) (i : Instr) (rest : List Turn), s.execState = .idle →
    s.turns = .access (.write (Config.base + 0x010) (encode i)) :: .engine ::
      .access (.read (Config.base + 0x008)) :: rest →
    ∃ b u t v, SameEngine (s.launch (encode i)) b ∧ exec i b = .next u ∧ Sys2Proof.core.run 3 s = .next t ∧
      SameEngine u t ∧ t.turns = rest ∧ t.response = some (.data v) ∧ v.getLsbD 0 = false ∧
      (v.getLsbD 2 = false → v.getLsbD 1 = true)

/-! ### Host sequences -/

/-- R77: HOSTWR leaves the number in the register and touches no other, and HOSTRD reads it back. -/
def Obligations.HostWriteThenHostRead : Prop :=
  ∀ (s : State) (r : Reg) (v : Nat), s.execState = .idle → s.reg r < 2 ^ Config.W → v < 2 ^ Config.W →
    (s.hostWrite r v).reg r = v ∧ (∀ r' : Reg, r' ≠ r → (s.hostWrite r v).reg r' = s.reg r') ∧
      (s.hostWrite r v).hostRead r = some v ∧ (s.hostWrite r v).execState = .idle

/-- R154: the words of the twelve commands of KEYGEN. -/
def Obligations.KeygenWords : Prop :=
  keygenCommands.map encode =
    [0x02700617, 0x10001101, 0x00002310, 0x00302411, 0x00076F15, 0x000F1513, 0x00065814, 0x00075914,
      0x00067A13, 0x00B06C12, 0x00D07E12] ∧
  ∀ L : Nat, L ≤ 1048575 → ∃ i, keygenLoad L = .command i ∧
    encode i = BitVec.ofNat 32 (0x00000001 + L * 2 ^ 12)

/-- R132, R133: the CRT sequence on ten different registers delivers the CRTConstants exactly when no command of it
faults, and otherwise ends in FAULTED with every register cleared. The host's polling is collapsed (log entry 16). -/
def Obligations.CrtDeliversTheCrtConstants : Prop :=
  ∀ (o : CrtOperands) (s : State), o.wellFormed = true → s.execState = .idle →
    ∃ t, runProgram ((crtSequence o).map .command) s = .next t ∧
      (2 ≤ s.reg o.rp → 2 ≤ s.reg o.rq → Nat.gcd (s.reg o.rq) (s.reg o.rp) = 1 →
        2 ^ (2 * bitLength (s.reg o.rp)) / s.reg o.rp < 2 ^ Config.W →
        2 ^ (2 * bitLength (s.reg o.rq)) / s.reg o.rq < 2 ^ Config.W →
        t.succeeded = true ∧
          t.reg o.rdp = s.reg o.rdd % (s.reg o.rp - 1) ∧
          t.reg o.rdq = s.reg o.rdd % (s.reg o.rq - 1) ∧
          t.reg o.rqi < s.reg o.rp ∧ t.reg o.rqi * s.reg o.rq % s.reg o.rp = 1 ∧
          t.reg o.rsp = 2 * bitLength (s.reg o.rp) ∧
          t.reg o.rfp = 2 ^ (2 * bitLength (s.reg o.rp)) / s.reg o.rp ∧
          t.reg o.rsq = 2 * bitLength (s.reg o.rq) ∧
          t.reg o.rfq = 2 ^ (2 * bitLength (s.reg o.rq)) / s.reg o.rq ∧
          ∀ r : Reg, r ∉ [o.rdp, o.rdq, o.rqi, o.rfp, o.rsp, o.rfq, o.rsq] → t.reg r = s.reg r) ∧
      (¬ (2 ≤ s.reg o.rp ∧ 2 ≤ s.reg o.rq ∧ Nat.gcd (s.reg o.rq) (s.reg o.rp) = 1 ∧
          2 ^ (2 * bitLength (s.reg o.rp)) / s.reg o.rp < 2 ^ Config.W ∧
          2 ^ (2 * bitLength (s.reg o.rq)) / s.reg o.rq < 2 ^ Config.W) →
        t.execState = .faulted ∧ ∀ r : Reg, t.reg r = 0)

/-- R154, R159, R161: what the whole KEYGEN leaves the host with, for `L = T div 2` and the pair (p, q) of the first
attempt: a complete and consistent pair of records, or a fault code alone. Which of the last two clauses applies
depends on what DrawPrime answers, which the spec leaves free; their conditions are complementary. The host's polling is
collapsed (log entry 16). -/
def Obligations.KeygenDeliversBothRecordsOrAFault : Prop :=
  ∀ (T : Nat) (s : State), EngineInv s → s.execState = .idle → T / 2 < 2 ^ Config.W →
    (Config.W < 2 * (T / 2) → keygen T s = .error 5) ∧
    (T / 2 ≤ 2 → keygen T s = .error 1) ∧
    (3 ≤ T / 2 → 2 * (T / 2) ≤ Config.W → s.maxatt = 0 → keygen T s = .error 3) ∧
    (3 ≤ T / 2 → 2 * (T / 2) ≤ Config.W → s.maxatt ≠ 0 →
      ∀ p q, p = attemptP Config.drawPrime (T / 2) s.rng 1 → q = attemptQ Config.drawPrime (T / 2) s.rng 1 →
        Config.prp p = true ∧ Config.prp q = true ∧
        (¬ (Nat.gcd 65537 ((p - 1) * (q - 1)) = 1 ∧ Nat.gcd q p = 1) → keygen T s = .error 2) ∧
        (Nat.gcd 65537 ((p - 1) * (q - 1)) = 1 → Nat.gcd q p = 1 →
          ∃ pub priv, keygen T s = .ok (some (pub, priv)) ∧ RecordsOf p q pub priv))

/-- R162: with the records KEYGEN delivers for two primes, a message encrypted with the public key is recovered by CRT
decryption. q = 2, which a length of 3 allows, is shut out: there dq = 0. The decryption is the usual form that R162
gives from general knowledge (log entry 23). -/
def Obligations.KeygenRecordsRoundTrip : Prop :=
  ∀ (p q m : Nat) (pub : PublicKey) (priv : PrivateKey), RecordsOf p q pub priv → p.Prime → q.Prime → q ≠ 2 →
    m < pub.n → priv.crtDecrypt (pub.encrypt m) = m

/-- R161, R206: a host program that ends in FAULTED leaves no result of any of its lines to be read. How a program runs
is log entry 16, and, where it begins in BUSY or FAULTED, log entries 25 and 26. -/
def Obligations.FaultedProgramLeavesNothing : Prop :=
  ∀ (program : List HostLine) (s t : State), EngineInv s → runProgram program s = .next t →
    t.execState = .faulted →
    (∀ r : Reg, t.reg r = 0 ∧ t.hostRead r = some 0) ∧ t.att = 0 ∧ t.acc = false ∧ t.done = false ∧
      1 ≤ t.fcode.toNat ∧ t.fcode.toNat ≤ 6
end

