-- ==== Sys2Proof/Laws/Arith.lean ====
section
/-! SUPPORT. One spec lemma per arithmetic function: each computes what `spec/00_scope.md` R13 to R17 define. -/

namespace Sys2Proof.Machine

/-- R13: `bitLength v` is the least `k` with `v < 2^k`. -/
theorem bitLength_le_iff (v k : Nat) : bitLength v ≤ k ↔ v < 2 ^ k := by
  unfold bitLength
  split
  · simp_all
  · rw [Nat.succ_le_iff, Nat.log2_lt ‹_›]

theorem lt_two_pow_bitLength (v : Nat) : v < 2 ^ bitLength v := (bitLength_le_iff v _).1 le_rfl

@[simp] theorem bitLength_zero : bitLength 0 = 0 := rfl

theorem bitLength_pos {v : Nat} (h : v ≠ 0) : 0 < bitLength v := by
  simp [bitLength, h]

theorem two_pow_le_of_lt_bitLength {v k : Nat} (h : k < bitLength v) : 2 ^ k ≤ v := by
  by_contra hc
  exact absurd ((bitLength_le_iff v k).2 (by omega)) (by omega)

theorem bitLength_eq_iff {v b : Nat} (hb : 1 ≤ b) : bitLength v = b ↔ 2 ^ (b - 1) ≤ v ∧ v < 2 ^ b := by
  constructor
  · rintro rfl
    exact ⟨two_pow_le_of_lt_bitLength (by omega), lt_two_pow_bitLength v⟩
  · rintro ⟨h1, h2⟩
    have hle := (bitLength_le_iff v b).2 h2
    have hge : ¬ bitLength v ≤ b - 1 := fun h => absurd ((bitLength_le_iff v (b - 1)).1 h) (by omega)
    omega

@[simp] theorem fits_iff (W v : Nat) : fits W v = true ↔ v < 2 ^ W := by
  simp [fits, bitLength_le_iff]

theorem isqrtDigits_spec (b v : Nat) (h : v < 2 ^ b) :
    isqrtDigits b v * isqrtDigits b v ≤ v ∧ v < (isqrtDigits b v + 1) * (isqrtDigits b v + 1) := by
  induction b generalizing v with
  | zero => simp at h; subst h; simp [isqrtDigits]
  | succ b ih =>
    have h4 : v / 4 < 2 ^ b := by rw [pow_succ] at h; omega
    obtain ⟨hlo, hhi⟩ := ih (v / 4) h4
    simp only [isqrtDigits]
    generalize isqrtDigits b (v / 4) = r at *
    have h1 := Nat.div_add_mod v 4
    have h2 := Nat.mod_lt v (show 4 > 0 by omega)
    have e1 : 2 * r * (2 * r) = 4 * (r * r) := by ring
    have e2 : (2 * r + 1 + 1) * (2 * r + 1 + 1) = 4 * ((r + 1) * (r + 1)) := by ring
    split
    · exact ⟨by assumption, by rw [e2]; omega⟩
    · exact ⟨by rw [e1]; omega, by omega⟩

/-- R15: `isqrt v` is the greatest `r` with `r · r ≤ v`. -/
theorem le_isqrt_iff (r v : Nat) : r ≤ isqrt v ↔ r * r ≤ v := by
  obtain ⟨hlo, hhi⟩ := isqrtDigits_spec (bitLength v) v (lt_two_pow_bitLength v)
  change r ≤ isqrtDigits (bitLength v) v ↔ _
  generalize isqrtDigits (bitLength v) v = q at *
  constructor
  · intro h; exact le_trans (Nat.mul_le_mul h h) hlo
  · intro h
    by_contra hc
    have := Nat.mul_le_mul (show q + 1 ≤ r by omega) (show q + 1 ≤ r by omega)
    omega

theorem isqrt_mul_self_le (v : Nat) : isqrt v * isqrt v ≤ v := (le_isqrt_iff _ v).1 le_rfl

theorem isqrt_lt_iff (r v : Nat) : isqrt v < r ↔ v < r * r := by
  rw [← not_le, le_isqrt_iff, not_le]

theorem invSteps_spec (a m : Nat) (hm : 0 < m) :
    ∀ fuel r0 r1 t0 t1, r1 ≤ fuel → t0 < m → t1 < m → a * t0 ≡ r0 [MOD m] → a * t1 ≡ r1 [MOD m] →
      invSteps m fuel r0 r1 t0 t1 < m ∧ a * invSteps m fuel r0 r1 t0 t1 ≡ Nat.gcd r0 r1 [MOD m] := by
  intro fuel
  induction fuel with
  | zero =>
    intro r0 r1 t0 t1 hf h0 _ e0 _
    obtain rfl : r1 = 0 := by omega
    simpa [invSteps] using ⟨h0, e0⟩
  | succ fuel ih =>
    intro r0 r1 t0 t1 hf h0 h1 e0 e1
    unfold invSteps
    split
    · next hz => subst hz; simpa using ⟨h0, e0⟩
    · next hz =>
      have hlt := Nat.mod_lt r0 (Nat.pos_of_ne_zero hz)
      have key : a * ((t0 + (m - r0 / r1 * t1 % m)) % m) ≡ r0 % r1 [MOD m] := by
        have hsum : r0 / r1 * t1 + (t0 + (m - r0 / r1 * t1 % m)) ≡ t0 [MOD m] := by
          have hb : r0 / r1 * t1 % m + (m - r0 / r1 * t1 % m) = m :=
            Nat.add_sub_cancel' (Nat.mod_lt _ hm).le
          calc r0 / r1 * t1 + (t0 + (m - r0 / r1 * t1 % m))
              ≡ r0 / r1 * t1 % m + (t0 + (m - r0 / r1 * t1 % m)) [MOD m] :=
                Nat.ModEq.add_right _ (Nat.mod_modEq _ _).symm
            _ = t0 + m := by omega
            _ ≡ t0 [MOD m] := by simp [Nat.ModEq]
        have hmul : a * (r0 / r1 * t1) + a * ((t0 + (m - r0 / r1 * t1 % m)) % m) ≡ r0 [MOD m] := by
          have h2 := hsum.mul_left a
          rw [Nat.mul_add] at h2
          exact ((((Nat.mod_modEq _ m).mul_left a).add_left _).trans h2).trans e0
        have hq : a * (r0 / r1 * t1) ≡ r0 / r1 * r1 [MOD m] := by
          have := e1.mul_left (r0 / r1)
          rwa [show r0 / r1 * (a * t1) = a * (r0 / r1 * t1) by ring] at this
        have hr : r0 / r1 * r1 + r0 % r1 = r0 := Nat.div_add_mod' r0 r1
        exact Nat.ModEq.add_left_cancel hq (by rw [hr]; exact hmul)
      have := ih r1 (r0 % r1) t1 ((t0 + (m - r0 / r1 * t1 % m)) % m) (by omega) h1 (Nat.mod_lt _ hm) e1 key
      rwa [Nat.gcd_comm r1, ← Nat.gcd_rec, Nat.gcd_comm r1] at this

/-- R17: where the inverse exists, `inv a m` is below `m` and `(a · inv a m) mod m = 1 mod m`. -/
theorem inv_spec (a m : Nat) (hm : 0 < m) (hg : Nat.gcd a m = 1) :
    inv a m < m ∧ a * inv a m % m = 1 % m := by
  have h := invSteps_spec a m hm m m (a % m) 0 (1 % m) (Nat.mod_lt _ hm).le hm (Nat.mod_lt _ hm)
    (by simp [Nat.ModEq])
    (((Nat.mod_modEq 1 m).mul_left a).trans (by simp [Nat.ModEq]))
  rw [Nat.gcd_comm m, ← Nat.gcd_rec, Nat.gcd_comm, hg] at h
  exact h

/-- R16: the difference, whichever operand is larger. -/
theorem absdiff_comm (a b : Nat) : absdiff a b = absdiff b a := by
  unfold absdiff; split <;> split <;> omega

end Sys2Proof.Machine
end

