-- ==== Sys2Proof/Laws/Config.lean ====
section
/-! SUPPORT. What may be used of the open parameters: the spec's constraints and no more. -/

namespace Sys2Proof

theorem Config.W_mod : Config.W % 32 = 0 := Config.implementation.valid.width_mod

theorem Config.W_min : 64 ≤ Config.W := Config.implementation.valid.width_min

theorem Config.W_max : Config.W ≤ 65504 := Config.implementation.valid.width_max

theorem Config.drawPrime_min (b : Nat) (g : RngState) (h : 2 ≤ b) : 2 ^ (b - 1) ≤ (Config.drawPrime b g).1 :=
  Config.implementation.valid.draw_min b g h

theorem Config.drawPrime_max (b : Nat) (g : RngState) (h : 2 ≤ b) : (Config.drawPrime b g).1 < 2 ^ b :=
  Config.implementation.valid.draw_max b g h

theorem Config.drawPrime_prp (b : Nat) (g : RngState) (h : 2 ≤ b) :
    Config.prp (Config.drawPrime b g).1 = true :=
  Config.implementation.valid.draw_prp b g h

/-- Whatever `W` is, a value below `2^64` fits. -/
theorem Config.lt_two_pow_W {v : Nat} (h : v < 2 ^ 64) : v < 2 ^ Config.W :=
  lt_of_lt_of_le h (Nat.pow_le_pow_right (by decide) Config.W_min)

end Sys2Proof
end

