-- ==== Sys2Proof/Laws/State.lean ====
section
/-! SUPPORT. One lemma per field per update of the state, so that no proof unfolds a record update. -/

namespace Sys2Proof.Machine

variable (s : State) (r : Reg) (v : Nat) (w : Word) (c : Cause)

/-! ### a register write -/

theorem State.reg_setReg (r' : Reg) : (s.setReg r v).reg r' = if r' = r then v else s.reg r' := by
  unfold State.reg State.setReg
  simp only [Fin.getElem_fin, Vector.getElem_set, Fin.ext_iff, eq_comm]

@[simp] theorem State.reg_setReg_same : (s.setReg r v).reg r = v := by simp [State.reg_setReg]

@[simp] theorem State.execState_setReg : (s.setReg r v).execState = s.execState := rfl
@[simp] theorem State.done_setReg : (s.setReg r v).done = s.done := rfl
@[simp] theorem State.acc_setReg : (s.setReg r v).acc = s.acc := rfl
@[simp] theorem State.fcode_setReg : (s.setReg r v).fcode = s.fcode := rfl
@[simp] theorem State.cmd_setReg : (s.setReg r v).cmd = s.cmd := rfl
@[simp] theorem State.maxatt_setReg : (s.setReg r v).maxatt = s.maxatt := rfl
@[simp] theorem State.att_setReg : (s.setReg r v).att = s.att := rfl
@[simp] theorem State.rng_setReg : (s.setReg r v).rng = s.rng := rfl
@[simp] theorem State.seedsDrawn_setReg : (s.setReg r v).seedsDrawn = s.seedsDrawn := rfl
@[simp] theorem State.turns_setReg : (s.setReg r v).turns = s.turns := rfl
@[simp] theorem State.response_setReg : (s.setReg r v).response = s.response := rfl

/-! ### a list of register writes -/

@[simp] theorem State.writeRegs_nil : s.writeRegs [] = s := rfl

@[simp] theorem State.writeRegs_cons (rest : List (Reg × Nat)) :
    s.writeRegs ((r, v) :: rest) = (s.setReg r v).writeRegs rest := rfl

variable (l : List (Reg × Nat))

@[simp] theorem State.execState_writeRegs : (s.writeRegs l).execState = s.execState := by
  induction l generalizing s with
  | nil => rfl
  | cons p rest ih => rw [State.writeRegs, ih]; rfl

@[simp] theorem State.done_writeRegs : (s.writeRegs l).done = s.done := by
  induction l generalizing s with
  | nil => rfl
  | cons p rest ih => rw [State.writeRegs, ih]; rfl

@[simp] theorem State.acc_writeRegs : (s.writeRegs l).acc = s.acc := by
  induction l generalizing s with
  | nil => rfl
  | cons p rest ih => rw [State.writeRegs, ih]; rfl

@[simp] theorem State.fcode_writeRegs : (s.writeRegs l).fcode = s.fcode := by
  induction l generalizing s with
  | nil => rfl
  | cons p rest ih => rw [State.writeRegs, ih]; rfl

@[simp] theorem State.cmd_writeRegs : (s.writeRegs l).cmd = s.cmd := by
  induction l generalizing s with
  | nil => rfl
  | cons p rest ih => rw [State.writeRegs, ih]; rfl

@[simp] theorem State.maxatt_writeRegs : (s.writeRegs l).maxatt = s.maxatt := by
  induction l generalizing s with
  | nil => rfl
  | cons p rest ih => rw [State.writeRegs, ih]; rfl

@[simp] theorem State.att_writeRegs : (s.writeRegs l).att = s.att := by
  induction l generalizing s with
  | nil => rfl
  | cons p rest ih => rw [State.writeRegs, ih]; rfl

@[simp] theorem State.rng_writeRegs : (s.writeRegs l).rng = s.rng := by
  induction l generalizing s with
  | nil => rfl
  | cons p rest ih => rw [State.writeRegs, ih]; rfl

@[simp] theorem State.seedsDrawn_writeRegs : (s.writeRegs l).seedsDrawn = s.seedsDrawn := by
  induction l generalizing s with
  | nil => rfl
  | cons p rest ih => rw [State.writeRegs, ih]; rfl

@[simp] theorem State.turns_writeRegs : (s.writeRegs l).turns = s.turns := by
  induction l generalizing s with
  | nil => rfl
  | cons p rest ih => rw [State.writeRegs, ih]; rfl

@[simp] theorem State.response_writeRegs : (s.writeRegs l).response = s.response := by
  induction l generalizing s with
  | nil => rfl
  | cons p rest ih => rw [State.writeRegs, ih]; rfl

/-- A register no write of the list names keeps its value. -/
theorem State.reg_writeRegs_of_not_mem (h : ∀ p ∈ l, p.1 ≠ r) : (s.writeRegs l).reg r = s.reg r := by
  induction l generalizing s with
  | nil => rfl
  | cons p rest ih =>
    have hp := h p (List.mem_cons_self ..)
    rw [State.writeRegs, ih _ (fun q hq => h q (List.mem_cons_of_mem _ hq)), State.reg_setReg, if_neg (Ne.symm hp)]

/-- A register after a list of writes holds its old value or one of the list's values for it. -/
theorem State.reg_writeRegs_cases :
    (s.writeRegs l).reg r = s.reg r ∨ (r, (s.writeRegs l).reg r) ∈ l := by
  induction l generalizing s with
  | nil => exact .inl rfl
  | cons p rest ih =>
    obtain ⟨q, u⟩ := p
    rw [State.writeRegs]
    rcases ih (s.setReg q u) with h | h
    · rw [h, State.reg_setReg]
      split
      · next he => exact .inr (by simp [he])
      · exact .inl rfl
    · exact .inr (List.mem_cons_of_mem _ h)

/-! ### the normal end of a command -/

variable (res : Result)

@[simp] theorem State.reg_commit : (s.commit res).reg r = (s.writeRegs res.writes).reg r := rfl
@[simp] theorem State.execState_commit : (s.commit res).execState = .idle := rfl
@[simp] theorem State.done_commit : (s.commit res).done = true := rfl
@[simp] theorem State.acc_commit : (s.commit res).acc = res.acc.getD s.acc := rfl
@[simp] theorem State.fcode_commit : (s.commit res).fcode = s.fcode := State.fcode_writeRegs s _
@[simp] theorem State.cmd_commit : (s.commit res).cmd = s.cmd := State.cmd_writeRegs s _
@[simp] theorem State.maxatt_commit : (s.commit res).maxatt = s.maxatt := State.maxatt_writeRegs s _
@[simp] theorem State.att_commit : (s.commit res).att = res.att.getD s.att := rfl
@[simp] theorem State.rng_commit : (s.commit res).rng = res.rng.getD s.rng := rfl
@[simp] theorem State.seedsDrawn_commit : (s.commit res).seedsDrawn = s.seedsDrawn :=
  State.seedsDrawn_writeRegs s _
@[simp] theorem State.turns_commit : (s.commit res).turns = s.turns := State.turns_writeRegs s _
@[simp] theorem State.response_commit : (s.commit res).response = s.response := State.response_writeRegs s _

/-! ### fault entry -/

@[simp] theorem State.reg_faultEntry : (s.faultEntry c).reg r = 0 := by
  simp [State.reg, State.faultEntry]

@[simp] theorem State.execState_faultEntry : (s.faultEntry c).execState = .faulted := rfl
@[simp] theorem State.done_faultEntry : (s.faultEntry c).done = false := rfl
@[simp] theorem State.acc_faultEntry : (s.faultEntry c).acc = false := rfl
@[simp] theorem State.fcode_faultEntry : (s.faultEntry c).fcode = c.code := rfl
@[simp] theorem State.cmd_faultEntry : (s.faultEntry c).cmd = s.cmd := rfl
@[simp] theorem State.maxatt_faultEntry : (s.faultEntry c).maxatt = s.maxatt := rfl
@[simp] theorem State.att_faultEntry : (s.faultEntry c).att = 0 := rfl
@[simp] theorem State.seedsDrawn_faultEntry : (s.faultEntry c).seedsDrawn = s.seedsDrawn := rfl
@[simp] theorem State.turns_faultEntry : (s.faultEntry c).turns = s.turns := rfl
@[simp] theorem State.response_faultEntry : (s.faultEntry c).response = s.response := rfl

/-! ### reset -/

@[simp] theorem State.reg_resetEngine : s.resetEngine.reg r = 0 := by
  simp [State.reg, State.resetEngine]

@[simp] theorem State.execState_resetEngine : s.resetEngine.execState = .idle := rfl
@[simp] theorem State.done_resetEngine : s.resetEngine.done = false := rfl
@[simp] theorem State.acc_resetEngine : s.resetEngine.acc = false := rfl
@[simp] theorem State.fcode_resetEngine : s.resetEngine.fcode = 0 := rfl
@[simp] theorem State.cmd_resetEngine : s.resetEngine.cmd = 0 := rfl
@[simp] theorem State.maxatt_resetEngine : s.resetEngine.maxatt = Config.maxattReset := rfl
@[simp] theorem State.att_resetEngine : s.resetEngine.att = 0 := rfl
@[simp] theorem State.rng_resetEngine : s.resetEngine.rng = Config.initRng (Config.seedAt s.seedsDrawn) := rfl
@[simp] theorem State.seedsDrawn_resetEngine : s.resetEngine.seedsDrawn = s.seedsDrawn + 1 := rfl
@[simp] theorem State.turns_resetEngine : s.resetEngine.turns = s.turns := rfl
@[simp] theorem State.response_resetEngine : s.resetEngine.response = s.response := rfl

@[simp] theorem State.reg_reset : State.reset.reg r = 0 := by
  simp [State.reg, State.reset]

/-! ### launching a command -/

@[simp] theorem State.x_launch : (s.launch w).x = s.x := rfl
@[simp] theorem State.reg_launch : (s.launch w).reg r = s.reg r := rfl
@[simp] theorem State.execState_launch : (s.launch w).execState = .busy := rfl
@[simp] theorem State.done_launch : (s.launch w).done = false := rfl
@[simp] theorem State.acc_launch : (s.launch w).acc = s.acc := rfl
@[simp] theorem State.fcode_launch : (s.launch w).fcode = s.fcode := rfl
@[simp] theorem State.cmd_launch : (s.launch w).cmd = w := rfl
@[simp] theorem State.maxatt_launch : (s.launch w).maxatt = s.maxatt := rfl
@[simp] theorem State.att_launch : (s.launch w).att = s.att := rfl
@[simp] theorem State.rng_launch : (s.launch w).rng = s.rng := rfl
@[simp] theorem State.seedsDrawn_launch : (s.launch w).seedsDrawn = s.seedsDrawn := rfl
@[simp] theorem State.turns_launch : (s.launch w).turns = s.turns := rfl
@[simp] theorem State.response_launch : (s.launch w).response = s.response := rfl

/-! ### taking a turn off the list -/

@[simp] theorem State.reg_dropTurn : s.dropTurn.reg r = s.reg r := rfl
@[simp] theorem State.x_dropTurn : s.dropTurn.x = s.x := rfl
@[simp] theorem State.execState_dropTurn : s.dropTurn.execState = s.execState := rfl
@[simp] theorem State.done_dropTurn : s.dropTurn.done = s.done := rfl
@[simp] theorem State.acc_dropTurn : s.dropTurn.acc = s.acc := rfl
@[simp] theorem State.fcode_dropTurn : s.dropTurn.fcode = s.fcode := rfl
@[simp] theorem State.cmd_dropTurn : s.dropTurn.cmd = s.cmd := rfl
@[simp] theorem State.maxatt_dropTurn : s.dropTurn.maxatt = s.maxatt := rfl
@[simp] theorem State.att_dropTurn : s.dropTurn.att = s.att := rfl
@[simp] theorem State.rng_dropTurn : s.dropTurn.rng = s.rng := rfl
@[simp] theorem State.seedsDrawn_dropTurn : s.dropTurn.seedsDrawn = s.seedsDrawn := rfl
@[simp] theorem State.turns_dropTurn : s.dropTurn.turns = s.turns.tail := rfl
@[simp] theorem State.response_dropTurn : s.dropTurn.response = s.response := rfl

/-! ### answering the host, writing MAXATT -/

variable (a : BusResponse)

@[simp] theorem State.x_respond : (s.respond a).x = s.x := rfl
@[simp] theorem State.reg_respond : (s.respond a).reg r = s.reg r := rfl
@[simp] theorem State.execState_respond : (s.respond a).execState = s.execState := rfl
@[simp] theorem State.done_respond : (s.respond a).done = s.done := rfl
@[simp] theorem State.acc_respond : (s.respond a).acc = s.acc := rfl
@[simp] theorem State.fcode_respond : (s.respond a).fcode = s.fcode := rfl
@[simp] theorem State.cmd_respond : (s.respond a).cmd = s.cmd := rfl
@[simp] theorem State.maxatt_respond : (s.respond a).maxatt = s.maxatt := rfl
@[simp] theorem State.att_respond : (s.respond a).att = s.att := rfl
@[simp] theorem State.rng_respond : (s.respond a).rng = s.rng := rfl
@[simp] theorem State.seedsDrawn_respond : (s.respond a).seedsDrawn = s.seedsDrawn := rfl
@[simp] theorem State.turns_respond : (s.respond a).turns = s.turns := rfl
@[simp] theorem State.response_respond : (s.respond a).response = some a := rfl

@[simp] theorem State.reg_setMaxatt : (s.setMaxatt w).reg r = s.reg r := rfl
@[simp] theorem State.maxatt_setMaxatt : (s.setMaxatt w).maxatt = w := rfl
@[simp] theorem State.x_setMaxatt : (s.setMaxatt w).x = s.x := rfl
@[simp] theorem State.execState_setMaxatt : (s.setMaxatt w).execState = s.execState := rfl
@[simp] theorem State.done_setMaxatt : (s.setMaxatt w).done = s.done := rfl
@[simp] theorem State.acc_setMaxatt : (s.setMaxatt w).acc = s.acc := rfl
@[simp] theorem State.fcode_setMaxatt : (s.setMaxatt w).fcode = s.fcode := rfl
@[simp] theorem State.cmd_setMaxatt : (s.setMaxatt w).cmd = s.cmd := rfl
@[simp] theorem State.att_setMaxatt : (s.setMaxatt w).att = s.att := rfl
@[simp] theorem State.rng_setMaxatt : (s.setMaxatt w).rng = s.rng := rfl
@[simp] theorem State.seedsDrawn_setMaxatt : (s.setMaxatt w).seedsDrawn = s.seedsDrawn := rfl
@[simp] theorem State.turns_setMaxatt : (s.setMaxatt w).turns = s.turns := rfl
@[simp] theorem State.response_setMaxatt : (s.setMaxatt w).response = s.response := rfl

end Sys2Proof.Machine
end

