-- ==== Sys2Proof/Laws/Bus.lean ====
section
/-! SUPPORT. The register window: where each target stands, what one word of a register is, and everything one access
can do. -/

namespace Sys2Proof.Machine

open Sys2Proof

/-! ### the address map -/

theorem targetAt_eq_none_iff {W : Nat} (h8 : W % 8 = 0) (hW : 0 < W) (off : Nat) :
    targetAt W off = none ↔ 0x1000 + 2 * W ≤ off := by
  obtain ⟨k, rfl⟩ : ∃ k, W = 8 * k := ⟨W / 8, by omega⟩
  have hk : 8 * k / 8 = k := by omega
  unfold targetAt
  rw [hk]
  split
  · simp; omega
  · split
    · next h => simp only [reduceCtorEq, false_iff]; rw [Nat.div_lt_iff_lt_mul (by omega)] at h; omega
    · next h => simp only [true_iff]; rw [Nat.div_lt_iff_lt_mul (by omega)] at h; omega

/-- Word `j` of `x[i]` stands where R51 says. -/
theorem targetAt_regWord {W : Nat} (h32 : W % 32 = 0) (i : Reg) {j : Nat} (hj : j < W / 32) :
    targetAt W (0x1000 + i.val * (W / 8) + 4 * j) = some (.regWord i j) := by
  obtain ⟨k, rfl⟩ : ∃ k, W = 32 * k := ⟨W / 32, by omega⟩
  have h8 : 32 * k / 8 = 4 * k := by omega
  have hjk : j < k := by omega
  rw [h8]
  have hd : (0x1000 + i.val * (4 * k) + 4 * j - 0x1000) / (4 * k) = i.val := by
    rw [show 0x1000 + i.val * (4 * k) + 4 * j - 0x1000 = 4 * j + i.val * (4 * k) by omega,
      Nat.add_mul_div_right _ _ (by omega), Nat.div_eq_of_lt (by omega), Nat.zero_add]
  have hm : (0x1000 + i.val * (4 * k) + 4 * j - 0x1000) % (4 * k) = 4 * j := by
    rw [show 0x1000 + i.val * (4 * k) + 4 * j - 0x1000 = 4 * j + i.val * (4 * k) by omega,
      Nat.add_mul_mod_self_right, Nat.mod_eq_of_lt (by omega)]
  have hj4 : 4 * j / 4 = j := by omega
  unfold targetAt
  rw [if_neg (by omega), h8, dif_pos (by rw [hd]; exact i.isLt)]
  simp only [hd, hm, hj4]

/-- A register word's offset is aligned. -/
theorem regWord_offset_aligned {W : Nat} (h32 : W % 32 = 0) (i : Reg) (j : Nat) :
    (0x1000 + i.val * (W / 8) + 4 * j) % 4 = 0 := by
  obtain ⟨k, hk⟩ : ∃ k, W / 8 = 4 * k := ⟨W / 32, by omega⟩
  rw [hk, show i.val * (4 * k) = 4 * (i.val * k) by ring]
  omega

/-- An aligned offset whose target is a register word is the one R51 gives that word. -/
theorem offset_of_targetAt_regWord {W off : Nat} (h32 : W % 32 = 0) (hW : 0 < W) {i : Reg} {j : Nat}
    (h : targetAt W off = some (.regWord i j)) (ha : off % 4 = 0) :
    j < W / 32 ∧ off = 0x1000 + i.val * (W / 8) + 4 * j := by
  obtain ⟨k, rfl⟩ : ∃ k, W = 32 * k := ⟨W / 32, by omega⟩
  have h8 : 32 * k / 8 = 4 * k := by omega
  unfold targetAt at h
  rw [h8] at h
  split at h
  · split at h <;> cases h
  · split at h
    · next hlt hd =>
      simp only [Option.some.injEq, Target.regWord.injEq] at h
      obtain ⟨rfl, rfl⟩ := h
      have e := Nat.div_add_mod (off - 0x1000) (4 * k)
      have hm := Nat.mod_lt (off - 0x1000) (show 4 * k > 0 by omega)
      have h4 : (off - 0x1000) % (4 * k) % 4 = 0 := by
        rw [Nat.mod_mul_right_mod]; omega
      rw [h8]
      constructor
      · omega
      · simp only
        have : (off - 4096) / (4 * k) * (4 * k) = 4 * k * ((off - 4096) / (4 * k)) := Nat.mul_comm _ _
        omega
    · cases h

theorem targetAt_control (W : Nat) :
    targetAt W 0x000 = some .id ∧ targetAt W 0x004 = some .param ∧ targetAt W 0x008 = some .status ∧
      targetAt W 0x00C = some .ctrl ∧ targetAt W 0x010 = some .cmd ∧ targetAt W 0x014 = some .maxatt ∧
      targetAt W 0x018 = some .att := ⟨rfl, rfl, rfl, rfl, rfl, rfl, rfl⟩

/-- Which offset a control target stands at. -/
theorem offset_of_targetAt_control {W off : Nat} {t : Target} (h : targetAt W off = some t) :
    (t = .ctrl → off = 0x00C) ∧ (t = .cmd → off = 0x010) ∧ (t = .maxatt → off = 0x014) := by
  unfold targetAt at h
  split at h
  · split at h <;> cases h <;> simp
  · split at h <;> cases h; simp

/-! ### one word of a register -/

theorem wordField_lt (a j : Nat) : wordField a j < 2 ^ 32 := Nat.mod_lt _ (by positivity)

theorem wordField_eq (a j : Nat) : wordField a j = a / 2 ^ (32 * j) % 2 ^ 32 := rfl

/-- A register split at word `j`: the words below, word `j`, the words above. -/
theorem split_at_word (a j : Nat) :
    a = a % 2 ^ (32 * j) + (wordField a j + a / 2 ^ (32 * (j + 1)) * 2 ^ 32) * 2 ^ (32 * j) := by
  have h1 := Nat.div_add_mod a (2 ^ (32 * j))
  have h2 := Nat.div_add_mod (a / 2 ^ (32 * j)) (2 ^ 32)
  have h3 : a / 2 ^ (32 * (j + 1)) = a / 2 ^ (32 * j) / 2 ^ 32 := by
    rw [Nat.div_div_eq_div_mul, ← pow_add]; congr 2
  rw [h3, wordField_eq, show a / 2 ^ (32 * j) % 2 ^ 32 + a / 2 ^ (32 * j) / 2 ^ 32 * 2 ^ 32 = a / 2 ^ (32 * j) by
    omega, Nat.add_comm, Nat.div_add_mod']

theorem replaceWord_eq (a j : Nat) (v : Word) :
    replaceWord a j v =
      a % 2 ^ (32 * j) + (v.toNat + a / 2 ^ (32 * (j + 1)) * 2 ^ 32) * 2 ^ (32 * j) := by
  have h := split_at_word a j
  unfold replaceWord
  generalize wordField a j = f at *
  generalize a % 2 ^ (32 * j) = lo at *
  generalize a / 2 ^ (32 * (j + 1)) = hi at *
  generalize 2 ^ (32 * j) = P at *
  have e1 : (f + hi * 2 ^ 32) * P = f * P + hi * 2 ^ 32 * P := Nat.add_mul ..
  have e2 : (v.toNat + hi * 2 ^ 32) * P = v.toNat * P + hi * 2 ^ 32 * P := Nat.add_mul ..
  omega

/-- The word written is the word read. -/
theorem wordField_replaceWord_same (a j : Nat) (v : Word) : wordField (replaceWord a j v) j = v.toNat := by
  have hlo := Nat.mod_lt a (show 2 ^ (32 * j) > 0 by positivity)
  rw [replaceWord_eq, wordField_eq, Nat.add_mul_div_right _ _ (by positivity), Nat.div_eq_of_lt hlo, Nat.zero_add,
    Nat.add_mul_mod_self_right, Nat.mod_eq_of_lt v.isLt]

/-- The words below a written one are as before. -/
theorem mod_replaceWord (a j : Nat) (v : Word) : replaceWord a j v % 2 ^ (32 * j) = a % 2 ^ (32 * j) := by
  rw [replaceWord_eq, Nat.add_mul_mod_self_right, Nat.mod_mod]

/-- The words above a written one are as before. -/
theorem div_replaceWord (a j : Nat) (v : Word) :
    replaceWord a j v / 2 ^ (32 * (j + 1)) = a / 2 ^ (32 * (j + 1)) := by
  have hlo := Nat.mod_lt a (show 2 ^ (32 * j) > 0 by positivity)
  rw [replaceWord_eq, show 32 * (j + 1) = 32 * j + 32 by ring, pow_add, ← Nat.div_div_eq_div_mul,
    Nat.add_mul_div_right _ _ (by positivity), Nat.div_eq_of_lt hlo, Nat.zero_add,
    Nat.add_mul_div_right _ _ (by positivity), Nat.div_eq_of_lt v.isLt, Nat.zero_add]

theorem wordField_replaceWord_ne (a : Nat) {j k : Nat} (v : Word) (h : k ≠ j) :
    wordField (replaceWord a j v) k = wordField a k := by
  rcases Nat.lt_or_gt_of_ne h with hlt | hgt
  · have key (b : Nat) : wordField (b % 2 ^ (32 * j)) k = wordField b k := by
      rw [wordField_eq, wordField_eq, show 32 * j = 32 * k + (32 + 32 * (j - k - 1)) by omega, pow_add,
        Nat.mod_mul_right_div_self, pow_add, Nat.mod_mul_right_mod]
    rw [← key, mod_replaceWord, key]
  · have key (b : Nat) : wordField b k = wordField (b / 2 ^ (32 * (j + 1))) (k - (j + 1)) := by
      rw [wordField_eq, wordField_eq, Nat.div_div_eq_div_mul, ← pow_add,
        show 32 * (j + 1) + 32 * (k - (j + 1)) = 32 * k by omega]
    rw [key, div_replaceWord, ← key]

/-- Replacing a word inside a `W`-bit register keeps it a `W`-bit value. -/
theorem replaceWord_lt {W a j : Nat} (v : Word) (h32 : W % 32 = 0) (ha : a < 2 ^ W) (hj : j < W / 32) :
    replaceWord a j v < 2 ^ W := by
  have hW : W = 32 * (j + 1) + (W - 32 * (j + 1)) := by omega
  rw [← Nat.div_lt_one_iff (by positivity), hW, pow_add, ← Nat.div_div_eq_div_mul, div_replaceWord,
    Nat.div_div_eq_div_mul, ← pow_add, ← hW, Nat.div_lt_one_iff (by positivity)]
  exact ha

/-! ### one access -/

theorem busAccess_read_at (s : State) (off : Nat) :
    s.busAccess (.read (Config.base + off)) = s.respond (s.busRead Config.W off) := by
  simp [State.busAccess, State.accessAt]

theorem busAccess_write_at (s : State) (off : Nat) (v : Word) :
    s.busAccess (.write (Config.base + off) v) = s.busWrite Config.W off v := by
  simp [State.busAccess, State.accessAt]

theorem busAccess_odd_at (s : State) (width : OddWidth) (off : Nat) :
    s.busAccess (.odd width (Config.base + off)) = s.respond (busOdd Config.W off) := by
  simp [State.busAccess, State.accessAt]

theorem busRead_of_target {W off : Nat} {s : State} {t : Target} {v : Word} (ht : targetAt W off = some t)
    (ha : off % 4 = 0) (hadm : admitsRead s.execState t = true) (hv : s.readTarget W t = some v) :
    s.busRead W off = .data v := by
  unfold State.busRead
  rw [ht]
  simp only [ha, hadm, hv, and_self, if_true]

theorem busWrite_of_target {W off : Nat} {s : State} {t : Target} {v : Word} (ht : targetAt W off = some t)
    (ha : off % 4 = 0) (hadm : admitsWrite s.execState t v = true) :
    s.busWrite W off v = (s.writeTarget v t).respond .ok := by
  unfold State.busWrite
  rw [ht]
  simp only [ha, hadm, and_self, if_true]

/-- Everything a write can do. -/
theorem busWrite_cases (W off : Nat) (v : Word) (s : State) :
    (∃ r, s.busWrite W off v = s.respond r) ∨
      (off = 0x00C ∧ v = 1 ∧ s.busWrite W off v = s.resetEngine.respond .ok) ∨
      (s.execState = .idle ∧ off = 0x010 ∧ s.busWrite W off v = (s.launch v).respond .ok) ∨
      (s.execState = .idle ∧ off = 0x014 ∧
        s.busWrite W off v = (s.setMaxatt v).respond .ok) ∨
      (s.execState = .idle ∧ ∃ i j, targetAt W off = some (.regWord i j) ∧ off % 4 = 0 ∧
        s.busWrite W off v = (s.setReg i (replaceWord (s.reg i) j v)).respond .ok) := by
  unfold State.busWrite
  cases ht : targetAt W off with
  | none => exact .inl ⟨_, rfl⟩
  | some t =>
    obtain ⟨h1, h2, h3⟩ := offset_of_targetAt_control ht
    simp only
    split
    · next hc =>
      obtain ⟨ha, hadm⟩ := hc
      cases t with
      | ctrl =>
        by_cases hv : v = 1
        · exact .inr (.inl ⟨h1 rfl, hv, by simp [State.writeTarget, hv]⟩)
        · exact .inl ⟨.ok, by simp only [State.writeTarget, hv, if_false]⟩
      | cmd =>
        have he : s.execState = .idle := by revert hadm; cases s.execState <;> simp [admitsWrite]
        exact .inr (.inr (.inl ⟨he, h2 rfl, rfl⟩))
      | maxatt =>
        have he : s.execState = .idle := by revert hadm; cases s.execState <;> simp [admitsWrite]
        exact .inr (.inr (.inr (.inl ⟨he, h3 rfl, rfl⟩)))
      | regWord i j =>
        have he : s.execState = .idle := by revert hadm; cases s.execState <;> simp [admitsWrite]
        exact .inr (.inr (.inr (.inr ⟨he, i, j, rfl, ha, rfl⟩)))
      | id => exact .inl ⟨_, rfl⟩
      | param => exact .inl ⟨_, rfl⟩
      | status => exact .inl ⟨_, rfl⟩
      | att => exact .inl ⟨_, rfl⟩
      | reserved => exact .inl ⟨_, rfl⟩
    · exact .inl ⟨_, rfl⟩

/-- Everything an access can do: answer the host, reset, launch a command, write MAXATT, or write one word of a
register; the last three in IDLE only. -/
theorem busAccess_cases (a : BusAccess) (s : State) :
    (∃ r, s.busAccess a = s.respond r) ∨
      (isResetWrite a ∧ s.busAccess a = s.resetEngine.respond .ok) ∨
      (s.execState = .idle ∧ ∃ v, a = .write (Config.base + 0x010) v ∧
        s.busAccess a = (s.launch v).respond .ok) ∨
      (s.execState = .idle ∧ ∃ v, a = .write (Config.base + 0x014) v ∧
        s.busAccess a = (s.setMaxatt v).respond .ok) ∨
      (s.execState = .idle ∧ ∃ i j v, j < Config.W / 32 ∧
        a = .write (Config.base + (0x1000 + i.val * (Config.W / 8) + 4 * j)) v ∧
        s.busAccess a = (s.setReg i (replaceWord (s.reg i) j v)).respond .ok) := by
  cases a with
  | read addr =>
    refine .inl ?_
    unfold State.busAccess State.accessAt
    simp only
    split <;> exact ⟨_, rfl⟩
  | odd width addr =>
    refine .inl ?_
    unfold State.busAccess State.accessAt
    simp only
    split <;> exact ⟨_, rfl⟩
  | write addr v =>
    by_cases hb : addr < Config.base
    · exact .inl ⟨.outsideWindow, by simp [State.busAccess, State.accessAt, hb]⟩
    · obtain ⟨off, rfl⟩ : ∃ off, addr = Config.base + off := ⟨addr - Config.base, by omega⟩
      rw [busAccess_write_at]
      rcases busWrite_cases Config.W off v s with h | ⟨rfl, rfl, h⟩ | ⟨hi, rfl, h⟩ | ⟨hi, rfl, h⟩ |
        ⟨hi, i, j, ht, ha, h⟩
      · exact .inl h
      · exact .inr (.inl ⟨rfl, h⟩)
      · exact .inr (.inr (.inl ⟨hi, v, rfl, h⟩))
      · exact .inr (.inr (.inr (.inl ⟨hi, v, rfl, h⟩)))
      · obtain ⟨hj, hoff⟩ := offset_of_targetAt_regWord Config.W_mod (by have := Config.W_min; omega) ht ha
        exact .inr (.inr (.inr (.inr ⟨hi, i, j, v, hj, by rw [hoff], h⟩)))

end Sys2Proof.Machine
end

