-- ==== Sys2Proof/Laws/Commands.lean ====
section
/-! SUPPORT. What a command can do, said once: every meaning is the shared end `State.retire` of a pure result, and
each pure result is characterised by one lemma. -/

namespace Sys2Proof.Machine

open Sys2Proof

/-! ### the two ends of a command -/

/-- The normal end keeps everything the command does not name. -/
theorem retires_commit (s : State) (r : Result) : Retires (r.writes.map Prod.fst) s (s.commit r) where
  idle := rfl
  done := rfl
  regs q hq := State.reg_writeRegs_of_not_mem s q _ fun p hp e => hq (e ▸ List.mem_map_of_mem hp)
  fcode := State.fcode_commit s r
  fixed := ⟨by simp, by simp, by simp, by simp, by simp⟩

theorem faultEntered_faultEntry (s : State) (c : Cause) : FaultEntered c s (s.faultEntry c) where
  faulted := rfl
  regs q := State.reg_faultEntry s q c
  att := rfl
  acc := rfl
  done := rfl
  fcode := rfl
  fixed := ⟨rfl, rfl, rfl, rfl, rfl⟩

/-- The end of a command is a next state: the result committed, or the fault entry. -/
theorem retire_eq_next (s t : State) (e : Except Cause Result) (h : s.retire e = .next t) :
    (∃ r, e = .ok r ∧ t = s.commit r) ∨ ∃ c, e = .error c ∧ t = s.faultEntry c := by
  cases e with
  | ok r => exact .inl ⟨r, rfl, by simpa [State.retire] using h.symm⟩
  | error c => exact .inr ⟨c, rfl, by simpa [State.retire] using h.symm⟩

/-! ### one result per command -/

/-- The pure result of a command in a state: what it writes, or the fault it raises. -/
def commandResult : Instr → State → Except Cause Result
  | .li rd imm20, _ => .ok { writes := [(rd, zextImm imm20)] }
  | .bitlen rd rs1, s => .ok { writes := [(rd, bitLength (s.reg rs1))] }
  | .mont rd rk rs1, s =>
    (montgomeryConstants (s.reg rs1)).map fun c => { writes := [(rk, c.bitLength), (rd, c.rr)] }
  | .barrett rd rk rs1, s =>
    (barrettConstants Config.W (s.reg rs1)).map fun c => { writes := [(rk, c.shift), (rd, c.factor)] }
  | .modinv rd rs1 rs2, s => (modinvValue (s.reg rs1) (s.reg rs2)).map fun r => { writes := [(rd, r)] }
  | .moddec rd rs1 rs2, s => (moddecValue (s.reg rs1) (s.reg rs2)).map fun r => { writes := [(rd, r)] }
  | .phi rd rs1 rs2, s => (phiValue Config.W (s.reg rs1) (s.reg rs2)).map fun f => { writes := [(rd, f)] }
  | .fermat rd rk rs1 rs2, s =>
    (fermatVerdict Config.W (s.reg rs1) (s.reg rs2)).map fun v =>
      { writes := [(rk, v.threshold), (rd, v.n)], acc := some v.accept }
  | .primegen rd rk rn rs1, s =>
    (primePair Config.W s.maxatt.toNat Config.drawPrime (s.reg rs1) s.rng).map fun k =>
      { writes := [(rn, k.n), (rk, k.q), (rd, k.p)], att := some (BitVec.ofNat 32 k.attempt), rng := some k.rng }

/-- Every meaning is the shared end of its pure result. -/
theorem exec_eq_retire (i : Instr) (s : State) : exec i s = s.retire (commandResult i s) := by
  cases i <;> rfl

/-- A command always answers a next state: its result committed, or a fault entry. -/
theorem exec_eq_next (i : Instr) (s : State) : ∃ t, exec i s = .next t := by
  rw [exec_eq_retire]
  cases commandResult i s <;> exact ⟨_, rfl⟩

theorem exec_cases {i : Instr} {s t : State} (h : exec i s = .next t) :
    (∃ r, commandResult i s = .ok r ∧ t = s.commit r) ∨
      ∃ c, commandResult i s = .error c ∧ t = s.faultEntry c :=
  retire_eq_next s t _ (exec_eq_retire i s ▸ h)

theorem faults_of_result {i : Instr} {s : State} {c : Cause} (h : commandResult i s = .error c) : Faults i s c :=
  ⟨s.faultEntry c, by rw [exec_eq_retire, h]; rfl, faultEntered_faultEntry s c⟩

theorem exec_of_result {i : Instr} {s : State} {r : Result} (h : commandResult i s = .ok r) :
    exec i s = .next (s.commit r) := by
  rw [exec_eq_retire, h]; rfl

/-- The registers a result writes are the command's destinations. -/
theorem commandResult_writes {i : Instr} {s : State} {r : Result} (h : commandResult i s = .ok r) :
    r.writes.map Prod.fst = destinations i := by
  cases i with
  | li rd imm20 => cases h; rfl
  | bitlen rd rs1 => cases h; rfl
  | mont rd rk rs1 =>
    simp only [commandResult] at h
    cases hm : montgomeryConstants (s.reg rs1) <;> rw [hm] at h <;> cases h; rfl
  | barrett rd rk rs1 =>
    simp only [commandResult] at h
    cases hm : barrettConstants Config.W (s.reg rs1) <;> rw [hm] at h <;> cases h; rfl
  | modinv rd rs1 rs2 =>
    simp only [commandResult] at h
    cases hm : modinvValue (s.reg rs1) (s.reg rs2) <;> rw [hm] at h <;> cases h; rfl
  | moddec rd rs1 rs2 =>
    simp only [commandResult] at h
    cases hm : moddecValue (s.reg rs1) (s.reg rs2) <;> rw [hm] at h <;> cases h; rfl
  | phi rd rs1 rs2 =>
    simp only [commandResult] at h
    cases hm : phiValue Config.W (s.reg rs1) (s.reg rs2) <;> rw [hm] at h <;> cases h; rfl
  | fermat rd rk rs1 rs2 =>
    simp only [commandResult] at h
    cases hm : fermatVerdict Config.W (s.reg rs1) (s.reg rs2) <;> rw [hm] at h <;> cases h; rfl
  | primegen rd rk rn rs1 =>
    simp only [commandResult] at h
    cases hm : primePair Config.W s.maxatt.toNat Config.drawPrime (s.reg rs1) s.rng <;> rw [hm] at h <;> cases h
    rfl

/-! ### the pure results -/

theorem montgomeryConstants_zero : montgomeryConstants 0 = .error .badOperand := rfl

theorem montgomeryConstants_of_ne_zero {m : Nat} (h : m ≠ 0) :
    montgomeryConstants m = .ok ⟨bitLength m, 2 ^ (2 * bitLength m) % m⟩ := by
  simp [montgomeryConstants, h]

theorem barrettConstants_zero (W : Nat) : barrettConstants W 0 = .error .badOperand := rfl

theorem barrettConstants_of_lt {W m : Nat} (h : m ≠ 0) (hf : 2 ^ (2 * bitLength m) / m < 2 ^ W) :
    barrettConstants W m = .ok ⟨2 * bitLength m, 2 ^ (2 * bitLength m) / m⟩ := by
  simp [barrettConstants, h, hf]

theorem barrettConstants_of_le {W m : Nat} (h : m ≠ 0) (hf : 2 ^ W ≤ 2 ^ (2 * bitLength m) / m) :
    barrettConstants W m = .error .rangeOverflow := by
  simp [barrettConstants, h, not_lt.2 hf]

theorem modinvValue_zero (a : Nat) : modinvValue a 0 = .error .badOperand := rfl

theorem modinvValue_of_gcd_ne {a m : Nat} (h : m ≠ 0) (hg : Nat.gcd a m ≠ 1) :
    modinvValue a m = .error .arithmeticInvariantViolation := by
  simp [modinvValue, h, hg]

theorem modinvValue_of_gcd_eq {a m : Nat} (h : m ≠ 0) (hg : Nat.gcd a m = 1) :
    modinvValue a m = .ok (inv a m) := by
  simp [modinvValue, h, hg]

theorem moddecValue_of_le {d p : Nat} (h : p ≤ 1) : moddecValue d p = .error .badOperand := by
  simp [moddecValue, h]

theorem moddecValue_of_two_le {d p : Nat} (h : 2 ≤ p) : moddecValue d p = .ok (d % (p - 1)) := by
  simp [moddecValue, show ¬ p ≤ 1 by omega]

theorem phiValue_of_zero {W p q : Nat} (h : p = 0 ∨ q = 0) : phiValue W p q = .error .badOperand := by
  simp [phiValue, h]

theorem phiValue_of_le {W p q : Nat} (hp : p ≠ 0) (hq : q ≠ 0) (h : 2 ^ W ≤ (p - 1) * (q - 1)) :
    phiValue W p q = .error .rangeOverflow := by
  simp [phiValue, hp, hq, not_lt.2 h]

theorem phiValue_of_lt {W p q : Nat} (hp : p ≠ 0) (hq : q ≠ 0) (h : (p - 1) * (q - 1) < 2 ^ W) :
    phiValue W p q = .ok ((p - 1) * (q - 1)) := by
  simp [phiValue, hp, hq, h]

theorem fermatVerdict_of_le {W p q : Nat} (h : 2 ^ W ≤ p * q) : fermatVerdict W p q = .error .rangeOverflow := by
  simp [fermatVerdict, not_lt.2 h]

theorem fermatVerdict_of_lt {W p q : Nat} (h : p * q < 2 ^ W) :
    fermatVerdict W p q = .ok ⟨p * q, isqrt (p * q / 2), fermatOk p q⟩ := by
  simp [fermatVerdict, h]

/-- The verdict of R93, in the words of R15. -/
theorem fermatOk_iff (p q : Nat) : fermatOk p q = true ↔ FermatAccepts p q := by
  rw [fermatOk, decide_eq_true_iff]
  constructor
  · intro h r hr
    exact lt_of_le_of_lt ((le_isqrt_iff _ _).2 hr) h
  · intro h
    exact h _ (isqrt_mul_self_le _)

/-- Two numbers one of which is more than twice the other pass the test: the algebra of R96. -/
theorem fermatAccepts_of_double_lt {p q : Nat} (h : 2 * q < p) : FermatAccepts p q := by
  intro r hr
  obtain ⟨d, rfl⟩ : ∃ d, p = 2 * q + d := ⟨p - 2 * q, by omega⟩
  have hd : absdiff (2 * q + d) q = q + d := by unfold absdiff; rw [if_pos (by omega)]; omega
  rw [hd]
  by_contra hc
  have hsq := Nat.mul_le_mul (not_lt.1 hc) (not_lt.1 hc)
  have := (Nat.le_div_iff_mul_le (by decide)).1 (le_trans hsq hr)
  nlinarith

/-! ### the retry loop -/

/-- One turn of the loop at an attempt that the lengths and MAXATT allow. -/
theorem primeAttempts_step (maxatt : Nat) (draw : Nat → RngState → Nat × RngState) (L rest k : Nat) (g : RngState)
    (hk : k ≤ maxatt) :
    primeAttempts maxatt draw L (rest + 2) k g =
      if fermatOk (draw (L + k) g).1 (draw (rest + 2) (draw (L + k) g).2).1 then
        .ok { p := (draw (L + k) g).1, q := (draw (rest + 2) (draw (L + k) g).2).1,
              n := (draw (L + k) g).1 * (draw (rest + 2) (draw (L + k) g).2).1, attempt := k,
              rng := (draw (rest + 2) (draw (L + k) g).2).2 }
      else primeAttempts maxatt draw L (rest + 1) (k + 1) (draw (rest + 2) (draw (L + k) g).2).2 := by
  rw [primeAttempts, if_neg (by omega)]

/-- What an accepting loop delivers: an attempt in range whose draws pass the test. -/
theorem primeAttempts_ok {maxatt : Nat} {draw : Nat → RngState → Nat × RngState} {L : Nat} :
    ∀ {rest k : Nat} {g : RngState} {r : PrimePair}, primeAttempts maxatt draw L rest k g = .ok r →
      k ≤ r.attempt ∧ r.attempt ≤ maxatt ∧ r.attempt + 2 ≤ rest + k ∧ r.n = r.p * r.q ∧
        fermatOk r.p r.q = true ∧
        ∃ g', r.p = (draw (L + r.attempt) g').1 ∧
          r.q = (draw (rest + k - r.attempt) (draw (L + r.attempt) g').2).1 := by
  intro rest
  induction rest with
  | zero => intro k g r h; cases h
  | succ rest ih =>
    intro k g r h
    cases rest with
    | zero => cases h
    | succ rest =>
      by_cases hk : maxatt < k
      · rw [primeAttempts, if_pos hk] at h; cases h
      · rw [primeAttempts_step _ _ _ _ _ _ (by omega)] at h
        split at h
        · next hok =>
          cases h
          refine ⟨le_rfl, by simp only; omega, by simp only; omega, rfl, hok, g, rfl, ?_⟩
          simp only [show rest + 1 + 1 + k - k = rest + 2 by omega]
        · obtain ⟨h1, h2, h3, h4, h5, g', h6, h7⟩ := ih h
          refine ⟨by omega, h2, by omega, h4, h5, g', h6, ?_⟩
          rw [h7, show rest + 1 + (k + 1) = rest + 1 + 1 + k by omega]

/-- The fault of a loop that accepts nothing is one of two. -/
theorem primeAttempts_error {maxatt : Nat} {draw : Nat → RngState → Nat × RngState} {L : Nat} :
    ∀ {rest k : Nat} {g : RngState} {c : Cause}, primeAttempts maxatt draw L rest k g = .error c →
      c = .invalidInput ∨ c = .primeGenerationExhaustion := by
  intro rest
  induction rest with
  | zero => intro k g c h; cases h; exact .inl rfl
  | succ rest ih =>
    intro k g c h
    cases rest with
    | zero => cases h; exact .inl rfl
    | succ rest =>
      by_cases hk : maxatt < k
      · rw [primeAttempts, if_pos hk] at h; cases h; exact .inr rfl
      · rw [primeAttempts_step _ _ _ _ _ _ (by omega)] at h
        split at h
        · cases h
        · exact ih h

theorem primePair_of_lt {W maxatt L : Nat} {draw : Nat → RngState → Nat × RngState} {g : RngState}
    (h : W < 2 * L) : primePair W maxatt draw L g = .error .rangeOverflow := by
  simp [primePair, h]

theorem primePair_of_le {W maxatt L : Nat} {draw : Nat → RngState → Nat × RngState} {g : RngState}
    (h : 2 * L ≤ W) : primePair W maxatt draw L g = primeAttempts maxatt draw L (L - 1) 1 g := by
  simp [primePair, not_lt.2 h]

/-- A command's result depends on the registers, MAXATT and the random state only. -/
theorem commandResult_congr (i : Instr) {s s' : State} (hx : s.x = s'.x) (hm : s.maxatt = s'.maxatt)
    (hg : s.rng = s'.rng) : commandResult i s = commandResult i s' := by
  have hr (q : Reg) : s.reg q = s'.reg q := by unfold State.reg; rw [hx]
  cases i <;> simp [commandResult, hr, hm, hg]

/-! ### the result of a command that ends normally, command by command -/

theorem mont_result {rd rk rs1 : Reg} {s : State} {r : Result} (h : commandResult (.mont rd rk rs1) s = .ok r) :
    s.reg rs1 ≠ 0 ∧
      r = { writes := [(rk, bitLength (s.reg rs1)), (rd, 2 ^ (2 * bitLength (s.reg rs1)) % s.reg rs1)] } := by
  simp only [commandResult, montgomeryConstants] at h
  split at h
  · cases h
  · next h0 => cases h; exact ⟨h0, rfl⟩

theorem barrett_result {rd rk rs1 : Reg} {s : State} {r : Result}
    (h : commandResult (.barrett rd rk rs1) s = .ok r) :
    s.reg rs1 ≠ 0 ∧ 2 ^ (2 * bitLength (s.reg rs1)) / s.reg rs1 < 2 ^ Config.W ∧
      r = { writes := [(rk, 2 * bitLength (s.reg rs1)), (rd, 2 ^ (2 * bitLength (s.reg rs1)) / s.reg rs1)] } := by
  simp only [commandResult, barrettConstants] at h
  split at h
  · cases h
  · split at h
    · next h0 hf => cases h; exact ⟨h0, (fits_iff _ _).1 hf, rfl⟩
    · cases h

theorem modinv_result {rd rs1 rs2 : Reg} {s : State} {r : Result}
    (h : commandResult (.modinv rd rs1 rs2) s = .ok r) :
    Nat.gcd (s.reg rs1) (s.reg rs2) = 1 ∧ ∃ v, v < s.reg rs2 ∧ s.reg rs1 * v % s.reg rs2 = 1 % s.reg rs2 ∧
      r = { writes := [(rd, v)] } := by
  simp only [commandResult, modinvValue] at h
  split at h
  · cases h
  · split at h
    · cases h
    · next h0 hg =>
      cases h
      have := inv_spec _ _ (Nat.pos_of_ne_zero h0) (not_not.1 hg)
      exact ⟨not_not.1 hg, _, this.1, this.2, rfl⟩

theorem moddec_result {rd rs1 rs2 : Reg} {s : State} {r : Result}
    (h : commandResult (.moddec rd rs1 rs2) s = .ok r) :
    2 ≤ s.reg rs2 ∧ r = { writes := [(rd, s.reg rs1 % (s.reg rs2 - 1))] } := by
  simp only [commandResult, moddecValue] at h
  split at h
  · cases h
  · next h0 => cases h; exact ⟨by omega, rfl⟩

theorem phi_result {rd rs1 rs2 : Reg} {s : State} {r : Result} (h : commandResult (.phi rd rs1 rs2) s = .ok r) :
    (s.reg rs1 - 1) * (s.reg rs2 - 1) < 2 ^ Config.W ∧
      r = { writes := [(rd, (s.reg rs1 - 1) * (s.reg rs2 - 1))] } := by
  simp only [commandResult, phiValue] at h
  split at h
  · cases h
  · split at h
    · next hf => cases h; exact ⟨(fits_iff _ _).1 hf, rfl⟩
    · cases h

theorem fermat_result {rd rk rs1 rs2 : Reg} {s : State} {r : Result}
    (h : commandResult (.fermat rd rk rs1 rs2) s = .ok r) :
    s.reg rs1 * s.reg rs2 < 2 ^ Config.W ∧
      r = { writes := [(rk, isqrt (s.reg rs1 * s.reg rs2 / 2)), (rd, s.reg rs1 * s.reg rs2)]
            acc := some (fermatOk (s.reg rs1) (s.reg rs2)) } := by
  simp only [commandResult, fermatVerdict] at h
  split at h
  · next hf => cases h; exact ⟨(fits_iff _ _).1 hf, rfl⟩
  · cases h

theorem primegen_result {rd rk rn rs1 : Reg} {s : State} {r : Result}
    (h : commandResult (.primegen rd rk rn rs1) s = .ok r) :
    2 * s.reg rs1 ≤ Config.W ∧
      ∃ k, primeAttempts s.maxatt.toNat Config.drawPrime (s.reg rs1) (s.reg rs1 - 1) 1 s.rng = .ok k ∧
        r = { writes := [(rn, k.n), (rk, k.q), (rd, k.p)], att := some (BitVec.ofNat 32 k.attempt)
              rng := some k.rng } := by
  by_cases hL : Config.W < 2 * s.reg rs1
  · simp [commandResult, primePair_of_lt hL, Except.map] at h
  · simp only [commandResult, primePair_of_le (not_lt.1 hL)] at h
    cases hp : primeAttempts s.maxatt.toNat Config.drawPrime (s.reg rs1) (s.reg rs1 - 1) 1 s.rng with
    | error c => simp [hp, Except.map] at h
    | ok k => exact ⟨not_lt.1 hL, k, rfl, by simpa [hp, Except.map] using h.symm⟩

/-- ACC is in the result of a FERMAT only. -/
theorem commandResult_acc {i : Instr} {s : State} {r : Result} (h : commandResult i s = .ok r)
    (ha : r.acc ≠ none) : ∃ rd rk rs1 rs2, i = .fermat rd rk rs1 rs2 := by
  cases i with
  | fermat rd rk rs1 rs2 => exact ⟨rd, rk, rs1, rs2, rfl⟩
  | li rd imm20 => cases h; exact absurd rfl ha
  | bitlen rd rs1 => cases h; exact absurd rfl ha
  | mont rd rk rs1 => obtain ⟨-, rfl⟩ := mont_result h; exact absurd rfl ha
  | barrett rd rk rs1 => obtain ⟨-, -, rfl⟩ := barrett_result h; exact absurd rfl ha
  | modinv rd rs1 rs2 => obtain ⟨-, v, -, -, rfl⟩ := modinv_result h; exact absurd rfl ha
  | moddec rd rs1 rs2 => obtain ⟨-, rfl⟩ := moddec_result h; exact absurd rfl ha
  | phi rd rs1 rs2 => obtain ⟨-, rfl⟩ := phi_result h; exact absurd rfl ha
  | primegen rd rk rn rs1 => obtain ⟨-, k, -, rfl⟩ := primegen_result h; exact absurd rfl ha

/-- ATT and `rng` are in the result of a PRIMEGEN only. -/
theorem commandResult_random {i : Instr} {s : State} {r : Result} (h : commandResult i s = .ok r)
    (ha : r.att ≠ none ∨ r.rng ≠ none) : ∃ rd rk rn rs1, i = .primegen rd rk rn rs1 := by
  cases i with
  | primegen rd rk rn rs1 => exact ⟨rd, rk, rn, rs1, rfl⟩
  | li rd imm20 => cases h; simp at ha
  | bitlen rd rs1 => cases h; simp at ha
  | mont rd rk rs1 => obtain ⟨-, rfl⟩ := mont_result h; simp at ha
  | barrett rd rk rs1 => obtain ⟨-, -, rfl⟩ := barrett_result h; simp at ha
  | modinv rd rs1 rs2 => obtain ⟨-, v, -, -, rfl⟩ := modinv_result h; simp at ha
  | moddec rd rs1 rs2 => obtain ⟨-, rfl⟩ := moddec_result h; simp at ha
  | phi rd rs1 rs2 => obtain ⟨-, rfl⟩ := phi_result h; simp at ha
  | fermat rd rk rs1 rs2 => obtain ⟨-, rfl⟩ := fermat_result h; simp at ha

end Sys2Proof.Machine
end

