-- ==== Sys2Proof/Laws/Decode.lean ====
section
/-! SUPPORT. Masks read as fields, and the fields of an encoded word. -/

namespace Sys2Proof

/-! ### the fields as numbers -/

theorem fieldOpcode_toNat (w : Word) : (fieldOpcode w).toNat = w.toNat % 2 ^ 8 := by
  simp [fieldOpcode, BitVec.extractLsb'_toNat]

theorem fieldReg_val (lo : Nat) (w : Word) : (fieldReg lo w).val = w.toNat / 2 ^ lo % 2 ^ 4 := by
  simp [fieldReg, Nat.shiftRight_eq_div_pow]

theorem fieldImm20_toNat (w : Word) : (fieldImm20 w).toNat = w.toNat / 2 ^ 12 % 2 ^ 20 := by
  simp [fieldImm20, BitVec.extractLsb'_toNat, Nat.shiftRight_eq_div_pow]

theorem toNat_encodeR {op : Nat} (h : op < 256) (rd rs1 rs2 rk rn : Reg) :
    (encodeR op rd rs1 rs2 rk rn).toNat =
      op + rd.val * 2 ^ 8 + rs1.val * 2 ^ 12 + rs2.val * 2 ^ 16 + rk.val * 2 ^ 20 + rn.val * 2 ^ 24 := by
  rw [encodeR, BitVec.toNat_ofNat, Nat.mod_eq_of_lt]
  omega

theorem toNat_encodeI {op : Nat} (h : op < 256) (rd : Reg) (imm20 : BitVec 20) :
    (encodeI op rd imm20).toNat = op + rd.val * 2 ^ 8 + imm20.toNat * 2 ^ 12 := by
  have := imm20.isLt
  rw [encodeI, BitVec.toNat_ofNat, Nat.mod_eq_of_lt]
  omega

/-- A word cut at the field boundaries of R71. -/
theorem word_eq_fields (w : Word) :
    w.toNat = (fieldOpcode w).toNat + (fieldRd w).val * 2 ^ 8 + (fieldRs1 w).val * 2 ^ 12 +
      (fieldRs2 w).val * 2 ^ 16 + (fieldRk w).val * 2 ^ 20 + (fieldRn w).val * 2 ^ 24 +
      (w.extractLsb' 28 4).toNat * 2 ^ 28 := by
  have := w.isLt
  simp only [fieldRd, fieldRs1, fieldRs2, fieldRk, fieldRn, fieldReg_val, fieldOpcode_toNat,
    BitVec.extractLsb'_toNat, Nat.shiftRight_eq_div_pow]
  omega

/-! ### masks as fields -/

/-- Matching under a mask is agreeing on each run of bits the mask covers, a run being its lowest bit and its
length. -/
theorem mask_iff_runs {w m p : Word} (runs : List (Nat × Nat))
    (hm : ∀ i < 32, m.getLsbD i = runs.any fun run => decide (run.1 ≤ i) && decide (i < run.1 + run.2))
    (hr : ∀ run ∈ runs, run.1 + run.2 ≤ 32) (hp : p &&& m = p) :
    w &&& m = p ↔ ∀ run ∈ runs, w.toNat / 2 ^ run.1 % 2 ^ run.2 = p.toNat / 2 ^ run.1 % 2 ^ run.2 := by
  have bits (v : Word) (i : Nat) : v.getLsbD i = v.toNat.testBit i := rfl
  constructor
  · intro h run hrun
    apply Nat.eq_of_testBit_eq
    intro i
    simp only [Nat.testBit_mod_two_pow, Nat.testBit_div_two_pow]
    by_cases hi : i < run.2
    · have hb := hm (i + run.1) (by have := hr run hrun; omega)
      rw [show (runs.any fun q => decide (q.1 ≤ i + run.1) && decide (i + run.1 < q.1 + q.2)) = true from
        List.any_eq_true.2 ⟨run, hrun, by simp; omega⟩] at hb
      have := congrArg (fun v => v.getLsbD (i + run.1)) h
      rw [BitVec.getLsbD_and, hb, Bool.and_true, bits, bits] at this
      rw [this]
    · simp [hi]
  · intro h
    rw [← hp]
    apply BitVec.eq_of_getLsbD_eq
    intro i hi
    simp only [BitVec.getLsbD_and]
    cases hmi : m.getLsbD i with
    | false => simp
    | true =>
      rw [hm i hi, List.any_eq_true] at hmi
      obtain ⟨run, hrun, hin⟩ := hmi
      simp only [Bool.and_eq_true, decide_eq_true_eq] at hin
      have := congrArg (fun v => v.testBit (i - run.1)) (h run hrun)
      simp only [Nat.testBit_mod_two_pow, Nat.testBit_div_two_pow, show i - run.1 < run.2 by omega,
        show i - run.1 + run.1 = i by omega, decide_true, Bool.true_and] at this
      simp [bits, this]

/-! ### the row a word selects -/

/-- A word a row selects has the row's opcode: every mask covers bits 7:0. -/
theorem opcode_of_selects {r : OpcodeRow} (hr : r ∈ opcodeRows) {w : Word} (h : r.selects w = true) :
    w &&& 0xFF = r.pattern &&& 0xFF := by
  have hm : r.mask &&& 0xFF = 0xFF := by
    revert r; simp only [opcodeRows, List.forall_mem_cons]; simp
  rw [← beq_iff_eq.1 h, BitVec.and_assoc, hm]

/-- `decode` answers the command of a row that selects the word. -/
theorem decode_eq_ok {w : Word} {i : Instr} (h : decode w = .ok i) :
    ∃ r ∈ opcodeRows, r.selects w = true ∧ r.build w = i := by
  unfold decode at h
  split at h
  · next r hf =>
    exact ⟨r, List.mem_of_find?_eq_some hf, by simpa using List.find?_some hf, by simpa using h⟩
  · cases h

/-- The nine opcodes are different, so a row is known by its opcode. -/
theorem row_eq_of_opcode {r r' : OpcodeRow} (hr : r ∈ opcodeRows) (hr' : r' ∈ opcodeRows)
    (h : r.pattern &&& 0xFF = r'.pattern &&& 0xFF) : r = r' := by
  simp only [opcodeRows, List.mem_cons, List.not_mem_nil, or_false] at hr hr'
  rcases hr with rfl | rfl | rfl | rfl | rfl | rfl | rfl | rfl | rfl <;>
    rcases hr' with rfl | rfl | rfl | rfl | rfl | rfl | rfl | rfl | rfl <;>
    first | rfl | (exfalso; revert h; decide)

/-- The row that selects a word is the one `decode` reads it with. -/
theorem decode_of_selects {r : OpcodeRow} (hr : r ∈ opcodeRows) {w : Word} (h : r.selects w = true) :
    decode w = .ok (r.build w) := by
  unfold decode
  cases hf : opcodeRows.find? (fun r => r.selects w) with
  | none => exact absurd h (List.find?_eq_none.1 hf r hr)
  | some r' =>
    have hr' := List.mem_of_find?_eq_some hf
    have h' : r'.selects w = true := by simpa using List.find?_some hf
    rw [row_eq_of_opcode hr' hr (by rw [← opcode_of_selects hr' h', opcode_of_selects hr h])]

end Sys2Proof
end

