-- ==== Sys2Proof/Laws/PerInstr.lean ====
section
/-! SUPPORT. Per instruction: the word of a command has the command's own opcode and operands in their fields, and its
row of the table matches it and builds the command from it (`spec/30_encoding.md` R71, R73). -/

namespace Sys2Proof.Laws.EncodedWord

/-- Some row of R73 matches the command's word and reads the command back from it. -/
def Statement (i : Instr) : Prop :=
  ∃ r ∈ opcodeRows, r.selects (encode i) = true ∧ r.build (encode i) = i

theorem fields_encodeR {op : Nat} (h : op < 256) (rd rs1 rs2 rk rn : Reg) :
    fieldRd (encodeR op rd rs1 rs2 rk rn) = rd ∧ fieldRs1 (encodeR op rd rs1 rs2 rk rn) = rs1 ∧
      fieldRs2 (encodeR op rd rs1 rs2 rk rn) = rs2 ∧ fieldRk (encodeR op rd rs1 rs2 rk rn) = rk ∧
      fieldRn (encodeR op rd rs1 rs2 rk rn) = rn := by
  have e := toNat_encodeR h rd rs1 rs2 rk rn
  refine ⟨?_, ?_, ?_, ?_, ?_⟩ <;> apply Fin.ext <;>
    simp only [fieldRd, fieldRs1, fieldRs2, fieldRk, fieldRn, fieldReg_val, e] <;> omega

theorem li (rd : Reg) (imm20 : BitVec 20) : Statement (.li rd imm20) := by
  have e := toNat_encodeI (op := 0x01) (by decide) rd imm20
  refine ⟨⟨"LI", 0x000000FF, 0x00000001, fun w => .li (fieldRd w) (fieldImm20 w)⟩, by simp [opcodeRows], ?_, ?_⟩
  · simp only [OpcodeRow.selects, encode, beq_iff_eq]
    rw [mask_iff_runs [(0, 8)] (by decide) (by decide) (by decide)]
    simp [e]; omega
  · simp only [encode, Instr.li.injEq]
    have := imm20.isLt
    refine ⟨Fin.ext ?_, BitVec.eq_of_toNat_eq ?_⟩
    · rw [fieldRd, fieldReg_val, e]; omega
    · rw [fieldImm20_toNat, e]; omega

theorem bitlen (rd rs1 : Reg) : Statement (.bitlen rd rs1) := by
  have e := toNat_encodeR (op := 0x10) (by decide) rd rs1 0 0 0
  have f := fields_encodeR (op := 0x10) (by decide) rd rs1 0 0 0
  refine ⟨⟨"BITLEN", 0xFFFF00FF, 0x00000010, fun w => .bitlen (fieldRd w) (fieldRs1 w)⟩, by simp [opcodeRows], ?_, ?_⟩
  · simp only [OpcodeRow.selects, encode, beq_iff_eq]
    rw [mask_iff_runs [(0, 8), (16, 16)] (by decide) (by decide) (by decide)]
    simp [e]; omega
  · simp [encode, f]

theorem mont (rd rk rs1 : Reg) : Statement (.mont rd rk rs1) := by
  have e := toNat_encodeR (op := 0x11) (by decide) rd rs1 0 rk 0
  have f := fields_encodeR (op := 0x11) (by decide) rd rs1 0 rk 0
  refine ⟨⟨"MONT", 0xFF0F00FF, 0x00000011, fun w => .mont (fieldRd w) (fieldRk w) (fieldRs1 w)⟩,
    by simp [opcodeRows], ?_, ?_⟩
  · simp only [OpcodeRow.selects, encode, beq_iff_eq]
    rw [mask_iff_runs [(0, 8), (16, 4), (24, 8)] (by decide) (by decide) (by decide)]
    simp [e]; omega
  · simp [encode, f]

theorem barrett (rd rk rs1 : Reg) : Statement (.barrett rd rk rs1) := by
  have e := toNat_encodeR (op := 0x12) (by decide) rd rs1 0 rk 0
  have f := fields_encodeR (op := 0x12) (by decide) rd rs1 0 rk 0
  refine ⟨⟨"BARRETT", 0xFF0F00FF, 0x00000012, fun w => .barrett (fieldRd w) (fieldRk w) (fieldRs1 w)⟩,
    by simp [opcodeRows], ?_, ?_⟩
  · simp only [OpcodeRow.selects, encode, beq_iff_eq]
    rw [mask_iff_runs [(0, 8), (16, 4), (24, 8)] (by decide) (by decide) (by decide)]
    simp [e]; omega
  · simp [encode, f]

theorem modinv (rd rs1 rs2 : Reg) : Statement (.modinv rd rs1 rs2) := by
  have e := toNat_encodeR (op := 0x13) (by decide) rd rs1 rs2 0 0
  have f := fields_encodeR (op := 0x13) (by decide) rd rs1 rs2 0 0
  refine ⟨⟨"MODINV", 0xFFF000FF, 0x00000013, fun w => .modinv (fieldRd w) (fieldRs1 w) (fieldRs2 w)⟩,
    by simp [opcodeRows], ?_, ?_⟩
  · simp only [OpcodeRow.selects, encode, beq_iff_eq]
    rw [mask_iff_runs [(0, 8), (20, 12)] (by decide) (by decide) (by decide)]
    simp [e]; omega
  · simp [encode, f]

theorem moddec (rd rs1 rs2 : Reg) : Statement (.moddec rd rs1 rs2) := by
  have e := toNat_encodeR (op := 0x14) (by decide) rd rs1 rs2 0 0
  have f := fields_encodeR (op := 0x14) (by decide) rd rs1 rs2 0 0
  refine ⟨⟨"MODDEC", 0xFFF000FF, 0x00000014, fun w => .moddec (fieldRd w) (fieldRs1 w) (fieldRs2 w)⟩,
    by simp [opcodeRows], ?_, ?_⟩
  · simp only [OpcodeRow.selects, encode, beq_iff_eq]
    rw [mask_iff_runs [(0, 8), (20, 12)] (by decide) (by decide) (by decide)]
    simp [e]; omega
  · simp [encode, f]

theorem phi (rd rs1 rs2 : Reg) : Statement (.phi rd rs1 rs2) := by
  have e := toNat_encodeR (op := 0x15) (by decide) rd rs1 rs2 0 0
  have f := fields_encodeR (op := 0x15) (by decide) rd rs1 rs2 0 0
  refine ⟨⟨"PHI", 0xFFF000FF, 0x00000015, fun w => .phi (fieldRd w) (fieldRs1 w) (fieldRs2 w)⟩,
    by simp [opcodeRows], ?_, ?_⟩
  · simp only [OpcodeRow.selects, encode, beq_iff_eq]
    rw [mask_iff_runs [(0, 8), (20, 12)] (by decide) (by decide) (by decide)]
    simp [e]; omega
  · simp [encode, f]

theorem fermat (rd rk rs1 rs2 : Reg) : Statement (.fermat rd rk rs1 rs2) := by
  have e := toNat_encodeR (op := 0x16) (by decide) rd rs1 rs2 rk 0
  have f := fields_encodeR (op := 0x16) (by decide) rd rs1 rs2 rk 0
  refine ⟨⟨"FERMAT", 0xFF0000FF, 0x00000016,
    fun w => .fermat (fieldRd w) (fieldRk w) (fieldRs1 w) (fieldRs2 w)⟩, by simp [opcodeRows], ?_, ?_⟩
  · simp only [OpcodeRow.selects, encode, beq_iff_eq]
    rw [mask_iff_runs [(0, 8), (24, 8)] (by decide) (by decide) (by decide)]
    simp [e]; omega
  · simp [encode, f]

theorem primegen (rd rk rn rs1 : Reg) : Statement (.primegen rd rk rn rs1) := by
  have e := toNat_encodeR (op := 0x17) (by decide) rd rs1 0 rk rn
  have f := fields_encodeR (op := 0x17) (by decide) rd rs1 0 rk rn
  refine ⟨⟨"PRIMEGEN", 0xF00F00FF, 0x00000017,
    fun w => .primegen (fieldRd w) (fieldRk w) (fieldRn w) (fieldRs1 w)⟩, by simp [opcodeRows], ?_, ?_⟩
  · simp only [OpcodeRow.selects, encode, beq_iff_eq]
    rw [mask_iff_runs [(0, 8), (16, 4), (28, 4)] (by decide) (by decide) (by decide)]
    simp [e]; omega
  · simp [encode, f]

end Sys2Proof.Laws.EncodedWord
end

