-- ==== Sys2Proof/Laws/Step.lean ====
section
/-! SUPPORT. What one step can do, said once. -/

namespace Sys2Proof.Machine

open Sys2Proof

/-- Complete: the decoded command, or the fault entry of IllegalCommand. -/
theorem complete_of_decode {s : State} {i : Instr} (h : decode s.cmd = .ok i) : s.complete = exec i s := by
  rw [State.complete, h]

theorem complete_of_illegal {s : State} {e : DecodeError} (h : decode s.cmd = .error e) :
    s.complete = .next (s.faultEntry .illegalCommand) := by
  rw [State.complete, h]

/-- Everything Complete can do. -/
theorem complete_cases {s t : State} (h : s.complete = .next t) :
    (∃ i r, decode s.cmd = .ok i ∧ commandResult i s = .ok r ∧ t = s.commit r) ∨
      ∃ c, t = s.faultEntry c := by
  cases hd : decode s.cmd with
  | ok i =>
    rw [complete_of_decode hd] at h
    rcases exec_cases h with ⟨r, hr, rfl⟩ | ⟨c, -, rfl⟩
    · exact .inl ⟨i, r, rfl, hr, rfl⟩
    · exact .inr ⟨c, rfl⟩
  | error e =>
    rw [complete_of_illegal hd] at h
    exact .inr ⟨_, by simpa using h.symm⟩

theorem engineTurn_of_busy {s : State} (h : s.execState = .busy) : s.engineTurn = s.complete := by
  rw [State.engineTurn, h]

theorem engineTurn_of_not_busy {s : State} (h : s.execState ≠ .busy) : s.engineTurn = .next s := by
  unfold State.engineTurn
  split
  · next hb => exact absurd hb h
  · rfl
  · rfl

/-- On the engine's turn a step is the engine's. -/
theorem step_of_engineNext {s : State} (h : engineNext s) : step s = s.dropTurn.engineTurn := by
  unfold step State.takeTurn
  rcases h with h | h <;> rw [h]

theorem step_of_access {s : State} {a : BusAccess} (h : accessNext s a) :
    step s = .next (s.dropTurn.busAccess a) := by
  unfold step State.takeTurn; rw [h]

theorem step_of_reset {s : State} (h : s.turns.head? = some .reset) : step s = .next s.dropTurn.resetEngine := by
  unfold step State.takeTurn; rw [h]

/-- Whose turn it is. -/
theorem turn_cases (s : State) : engineNext s ∨ (∃ a, accessNext s a) ∨ s.turns.head? = some .reset := by
  unfold engineNext accessNext
  rcases s.turns.head? with _ | _ | a | _
  · exact .inl (.inl rfl)
  · exact .inl (.inr rfl)
  · exact .inr (.inl ⟨a, rfl⟩)
  · exact .inr (.inr rfl)

/-- Everything a step can do: the engine completes a command, normally or with a fault; the engine has nothing to do;
the host is answered; a reset; and, in IDLE only, a command launched, MAXATT written, or a word of a register
written. -/
theorem step_cases {s t : State} (h : step s = .next t) :
    (engineNext s ∧ s.execState = .busy ∧ ∃ i r, decode s.cmd = .ok i ∧ commandResult i s.dropTurn = .ok r ∧
        t = s.dropTurn.commit r) ∨
      (engineNext s ∧ s.execState = .busy ∧ ∃ c, t = s.dropTurn.faultEntry c) ∨
      (engineNext s ∧ s.execState ≠ .busy ∧ t = s.dropTurn) ∨
      (∃ r, t = s.dropTurn.respond r) ∨
      (resetsNext s ∧ (t = s.dropTurn.resetEngine ∨ t = s.dropTurn.resetEngine.respond .ok)) ∨
      (s.execState = .idle ∧ ∃ v, accessNext s (.write (Config.base + 0x010) v) ∧
        t = (s.dropTurn.launch v).respond .ok) ∨
      (s.execState = .idle ∧ ∃ v, accessNext s (.write (Config.base + 0x014) v) ∧
        t = (s.dropTurn.setMaxatt v).respond .ok) ∨
      (s.execState = .idle ∧ ∃ i j v, j < Config.W / 32 ∧
        accessNext s (.write (Config.base + (0x1000 + i.val * (Config.W / 8) + 4 * j)) v) ∧
        t = (s.dropTurn.setReg i (replaceWord (s.reg i) j v)).respond .ok) := by
  rcases turn_cases s with he | ⟨a, ha⟩ | hr
  · rw [step_of_engineNext he] at h
    by_cases hb : s.execState = .busy
    · rw [engineTurn_of_busy (s := s.dropTurn) hb] at h
      rcases complete_cases h with ⟨i, r, hd, hr, ht⟩ | ⟨c, ht⟩
      · exact .inl ⟨he, hb, i, r, hd, hr, ht⟩
      · exact .inr (.inl ⟨he, hb, c, ht⟩)
    · rw [engineTurn_of_not_busy (s := s.dropTurn) hb] at h
      exact .inr (.inr (.inl ⟨he, hb, by simpa using h.symm⟩))
  · rw [step_of_access ha] at h
    obtain rfl : s.dropTurn.busAccess a = t := by simpa using h
    rcases busAccess_cases a s.dropTurn with ⟨r, e⟩ | ⟨hw, e⟩ | ⟨hi, v, rfl, e⟩ | ⟨hi, v, rfl, e⟩ |
      ⟨hi, i, j, v, hj, rfl, e⟩
    · exact .inr (.inr (.inr (.inl ⟨r, e⟩)))
    · exact .inr (.inr (.inr (.inr (.inl ⟨.inr ⟨a, ha, hw⟩, .inr e⟩))))
    · exact .inr (.inr (.inr (.inr (.inr (.inl ⟨hi, v, ha, e⟩)))))
    · exact .inr (.inr (.inr (.inr (.inr (.inr (.inl ⟨hi, v, ha, e⟩))))))
    · exact .inr (.inr (.inr (.inr (.inr (.inr (.inr ⟨hi, i, j, v, hj, ha, e⟩))))))
  · rw [step_of_reset hr] at h
    exact .inr (.inr (.inr (.inr (.inl ⟨.inl hr, .inl (by simpa using h.symm)⟩))))

/-! ### runs -/

theorem run_zero (s : State) : core.run 0 s = .next s := rfl

theorem run_succ {k : Nat} {s t : State} (h : step s = .next t) : core.run (k + 1) s = core.run k t := by
  have h1 : core.step s = .next t := h
  have h2 := Host.Core.run.eq_def core (k + 1) s
  simp only [h1] at h2
  exact h2

end Sys2Proof.Machine
end

