-- ==== Sys2Proof/Laws/Sequences.lean ====
section
/-! SUPPORT. What executing a line of a host program does, said once (`spec/30_encoding.md` R77,
`spec/70_reset_and_hazards.md` R204). -/

namespace Sys2Proof.Machine

open Sys2Proof

/-- The host's poll changes nothing but the answer it gets. -/
theorem pollStatus_eq (s : State) : s.pollStatus = s.respond (.data s.statusWord) := by
  unfold State.pollStatus controlAddr
  rw [busAccess_read_at, busRead_of_target (t := .status) rfl rfl (by cases s.execState <;> rfl) rfl]

/-- A command line in IDLE: the command's result committed, or its fault entry. -/
theorem runLine_command {i : Instr} {s : State} (hi : s.execState = .idle) (hd : decode (encode i) = .ok i) :
    runLine (.command i) s = .next (match commandResult i s with
      | .ok r => (((s.launch (encode i)).respond .ok).commit r).pollStatus
      | .error c => (((s.launch (encode i)).respond .ok).faultEntry c).pollStatus) := by
  have e : s.busAccess (.write (controlAddr Config.base 0x010) (encode i)) = (s.launch (encode i)).respond .ok := by
    unfold controlAddr
    rw [busAccess_write_at, busWrite_of_target (t := .cmd) rfl rfl (by simp [hi, admitsWrite])]
    rfl
  simp only [runLine, e]
  rw [engineTurn_of_busy (by simp), complete_of_decode (i := i) (by simpa using hd), exec_eq_retire,
    commandResult_congr i (s' := s) (by simp) (by simp) (by simp)]
  cases commandResult i s <;> rfl

theorem reg_writeRegs_congr (l : List (Reg × Nat)) {s s' : State} (h : ∀ q : Reg, s.reg q = s'.reg q) (q : Reg) :
    (s.writeRegs l).reg q = (s'.writeRegs l).reg q := by
  induction l generalizing s s' with
  | nil => exact h q
  | cons p rest ih => exact ih fun q => by simp [State.reg_setReg, h]

/-- A program that begins with a command line in IDLE: the command faults and the program ends there, in FAULTED; or
the command's result is written and the rest of the program runs, from IDLE. -/
theorem runProgram_command_cases {i : Instr} {s : State} (hi : s.execState = .idle)
    (hd : decode (encode i) = .ok i) :
    (∃ c, commandResult i s = .error c ∧ ∃ t, (∀ rest, runProgram (.command i :: rest) s = .next t) ∧
        t.execState = .faulted ∧ t.fcode = c.code ∧ ∀ q : Reg, t.reg q = 0) ∨
      ∃ r, commandResult i s = .ok r ∧ ∃ t, (∀ rest, runProgram (.command i :: rest) s = runProgram rest t) ∧
        t.execState = .idle ∧ t.done = true ∧ t.maxatt = s.maxatt ∧ t.rng = r.rng.getD s.rng ∧
        ∀ q : Reg, t.reg q = (s.writeRegs r.writes).reg q := by
  have h := runLine_command hi hd
  cases hr : commandResult i s with
  | error c =>
    simp only [hr] at h
    refine .inl ⟨c, rfl, (((s.launch (encode i)).respond .ok).faultEntry c).pollStatus, fun rest => ?_, ?_⟩
    · rw [runProgram, h]
      exact if_pos (by simp [pollStatus_eq])
    · simp [pollStatus_eq]
  | ok r =>
    simp only [hr] at h
    refine .inr ⟨r, rfl, (((s.launch (encode i)).respond .ok).commit r).pollStatus, fun rest => ?_, ?_, ?_, ?_, ?_,
      fun q => ?_⟩
    · rw [runProgram, h]
      exact if_neg (by simp [pollStatus_eq])
    all_goals simp only [pollStatus_eq]
    · simp
    · simp
    · simp
    · simp
    · exact reg_writeRegs_congr r.writes (s := (s.launch (encode i)).respond .ok) (s' := s) (fun q => rfl) q

/-- Writing the words `0 .. n-1` of a number into a register leaves the words above as they were. -/
theorem hostWriteWords_eq (r : Reg) (v : Nat) (s : State) (h : s.execState = .idle) (n : Nat)
    (hn : n ≤ Config.W / 32) :
    (s.hostWriteWords r v n).execState = .idle ∧ (s.hostWriteWords r v n).maxatt = s.maxatt ∧
      (s.hostWriteWords r v n).rng = s.rng ∧ (∀ q : Reg, q ≠ r → (s.hostWriteWords r v n).reg q = s.reg q) ∧
      (s.hostWriteWords r v n).reg r = v % 2 ^ (32 * n) + s.reg r / 2 ^ (32 * n) * 2 ^ (32 * n) := by
  induction n with
  | zero => exact ⟨h, rfl, rfl, fun _ _ => rfl, by simp [State.hostWriteWords, Nat.mod_one]⟩
  | succ n ih =>
    obtain ⟨h1, hm, hg, h2, h3⟩ := ih (by omega)
    have e : s.hostWriteWords r v (n + 1) =
        ((s.hostWriteWords r v n).setReg r (replaceWord ((s.hostWriteWords r v n).reg r) n
          (BitVec.ofNat 32 (wordField v n)))).respond .ok := by
      simp only [State.hostWriteWords, regWordAddr]
      rw [busAccess_write_at, busWrite_of_target (targetAt_regWord Config.W_mod r (by omega))
        (regWord_offset_aligned Config.W_mod r n) (by simp [h1, admitsWrite])]
      rfl
    rw [e]
    refine ⟨h1, hm, hg, fun q hq => by simp [State.reg_setReg, hq, h2 q hq], ?_⟩
    have hlt := Nat.mod_lt v (show 2 ^ (32 * n) > 0 by positivity)
    have hv : (BitVec.ofNat 32 (wordField v n)).toNat = wordField v n := by simp [wordField]
    rw [State.reg_respond, State.reg_setReg_same, replaceWord_eq, h3, hv, Nat.add_mul_mod_self_right, Nat.mod_mod,
      show 32 * (n + 1) = 32 * n + 32 by ring, pow_add, ← Nat.div_div_eq_div_mul,
      Nat.add_mul_div_right _ _ (by positivity), Nat.div_eq_of_lt hlt, Nat.zero_add, Nat.div_div_eq_div_mul,
      Nat.mod_mul, wordField]
    ring

/-- Reading the words `0 .. n-1` of a register. -/
theorem hostReadWords_eq (r : Reg) (s : State) (h : s.execState ≠ .busy) (n : Nat) (hn : n ≤ Config.W / 32) :
    s.hostReadWords r n = some (s.reg r % 2 ^ (32 * n)) := by
  induction n with
  | zero => simp [State.hostReadWords, Nat.mod_one]
  | succ n ih =>
    have hadm : admitsRead s.execState (.regWord r n) = true := by
      revert h; cases s.execState <;> simp [admitsRead]
    have hv : (BitVec.ofNat 32 (wordField (s.reg r) n)).toNat = wordField (s.reg r) n := by simp [wordField]
    simp only [State.hostReadWords, regWordAddr]
    rw [ih (by omega), busAccess_read_at, busRead_of_target (targetAt_regWord Config.W_mod r (by omega))
      (regWord_offset_aligned Config.W_mod r n) hadm rfl]
    simp only [State.response_respond, hv]
    rw [show 32 * (n + 1) = 32 * n + 32 by ring, pow_add, Nat.mod_mul, wordField, Nat.mul_comm (2 ^ (32 * n))]

/-- HOSTRD delivers the register's value. -/
theorem hostRead_eq (r : Reg) (s : State) (h : s.execState ≠ .busy) (hx : s.reg r < 2 ^ Config.W) :
    s.hostRead r = some (s.reg r) := by
  have hW : 32 * (Config.W / 32) = Config.W := by have := Config.W_mod; omega
  rw [State.hostRead, hostReadWords_eq r s h _ le_rfl, hW, Nat.mod_eq_of_lt hx]

end Sys2Proof.Machine
end

