-- ==== Sys2Proof/Tests/Slice0.lean ====
section
/-! SUPPORT. Tests: the well-formedness checks, the spec's command words, two vectors of `spec/95_test_vectors.md` for
each command, the vectors of the register window, single steps, and for each statement with hypotheses a witness that
meets them. Expected values are the spec's. -/

namespace Sys2Proof.Tests

open Sys2Proof Sys2Proof.Machine

/-! ### well-formedness: one ill-formed term for each check (R73, R75, R78) -/

theorem test_wf_accepts_li : (fieldsOf 0xFFFFFF01).wellFormed = true := by decide
theorem test_wf_accepts_fermat : (fieldsOf 0x00FFFF16).wellFormed = true := by decide
theorem test_wf_accepts_primegen : (fieldsOf 0x0FF0FF17).wellFormed = true := by decide

theorem test_wf_refuses_reserved_opcodes :
    (fieldsOf 0x00000000).wellFormed = false ∧ (fieldsOf 0xFFFFFFFF).wellFormed = false ∧
      (fieldsOf 0x00000002).wellFormed = false ∧ (fieldsOf 0x00000018).wellFormed = false := by decide

theorem test_wf_refuses_bitlen :
    (fieldsOf 0x00011610).wellFormed = false ∧ (fieldsOf 0x00101610).wellFormed = false ∧
      (fieldsOf 0x01001610).wellFormed = false ∧ (fieldsOf 0x10001610).wellFormed = false := by decide

theorem test_wf_refuses_mont :
    (fieldsOf 0x00311211).wellFormed = false ∧ (fieldsOf 0x01301211).wellFormed = false ∧
      (fieldsOf 0x10301211).wellFormed = false := by decide

theorem test_wf_refuses_barrett :
    (fieldsOf 0x00511412).wellFormed = false ∧ (fieldsOf 0x01501412).wellFormed = false ∧
      (fieldsOf 0x10501412).wellFormed = false := by decide

theorem test_wf_refuses_modinv :
    (fieldsOf 0x00121313).wellFormed = false ∧ (fieldsOf 0x01021313).wellFormed = false ∧
      (fieldsOf 0x10021313).wellFormed = false := by decide

theorem test_wf_refuses_moddec :
    (fieldsOf 0x00113814).wellFormed = false ∧ (fieldsOf 0x01013814).wellFormed = false ∧
      (fieldsOf 0x10013814).wellFormed = false := by decide

theorem test_wf_refuses_phi :
    (fieldsOf 0x00121615).wellFormed = false ∧ (fieldsOf 0x01021615).wellFormed = false ∧
      (fieldsOf 0x10021615).wellFormed = false := by decide

theorem test_wf_refuses_fermat :
    (fieldsOf 0x01521416).wellFormed = false ∧ (fieldsOf 0x10521416).wellFormed = false := by decide

theorem test_wf_refuses_primegen :
    (fieldsOf 0x02710617).wellFormed = false ∧ (fieldsOf 0x12700617).wellFormed = false := by decide

theorem test_wf_crt : keygenCrt.wellFormed = true ∧ { keygenCrt with rdq := 8 }.wellFormed = false := by decide

/-! ### decoding: words written out from the encodings of R71 and R73 -/

/-- `LI x1, 65537`: imm20 = 0001 0000 0000 0000 0001, rd = 0001, opcode 0000 0001. -/
theorem test_decode_li : decode 0b00010000000000000001_0001_00000001 = .ok (.li 1 65537) := by decide
/-- `BITLEN x3, x2`: zero, rn, rk, rs2 = 0000, rs1 = 0010, rd = 0011, opcode 0001 0000. -/
theorem test_decode_bitlen : decode 0b0000_0000_0000_0000_0010_0011_00010000 = .ok (.bitlen 3 2) := by decide
/-- `MONT x4, x3, x2`: rk = 0011, rs1 = 0010, rd = 0100, opcode 0001 0001. -/
theorem test_decode_mont : decode 0b0000_0000_0011_0000_0010_0100_00010001 = .ok (.mont 4 3 2) := by decide
/-- `BARRETT x12, x11, x6`: rk = 1011, rs1 = 0110, rd = 1100, opcode 0001 0010. -/
theorem test_decode_barrett : decode 0b0000_0000_1011_0000_0110_1100_00010010 = .ok (.barrett 12 11 6) := by decide
/-- `MODINV x10, x7, x6`: rs2 = 0110, rs1 = 0111, rd = 1010, opcode 0001 0011. -/
theorem test_decode_modinv : decode 0b0000_0000_0000_0110_0111_1010_00010011 = .ok (.modinv 10 7 6) := by decide
/-- `MODDEC x8, x5, x6`: rs2 = 0110, rs1 = 0101, rd = 1000, opcode 0001 0100. -/
theorem test_decode_moddec : decode 0b0000_0000_0000_0110_0101_1000_00010100 = .ok (.moddec 8 5 6) := by decide
/-- `PHI x15, x6, x7`: rs2 = 0111, rs1 = 0110, rd = 1111, opcode 0001 0101. -/
theorem test_decode_phi : decode 0b0000_0000_0000_0111_0110_1111_00010101 = .ok (.phi 15 6 7) := by decide
/-- `FERMAT x4, x5, x1, x2`: rk = 0101, rs2 = 0010, rs1 = 0001, rd = 0100, opcode 0001 0110. -/
theorem test_decode_fermat : decode 0b0000_0000_0101_0010_0001_0100_00010110 = .ok (.fermat 4 5 1 2) := by decide
/-- `PRIMEGEN x6, x7, x2, x0`: rn = 0010, rk = 0111, rs1 = 0000, rd = 0110, opcode 0001 0111. -/
theorem test_decode_primegen : decode 0b0000_0010_0111_0000_0000_0110_00010111 = .ok (.primegen 6 7 2 0) := by decide

/-- IL-1 to IL-12. -/
theorem test_decode_illegal_opcodes :
    [0x00000000, 0xFFFFFFFF, 0x00000002, 0x00000018].map (fun w => decode w) =
      List.replicate 4 (.error .reservedOpcode) := by decide
theorem test_decode_illegal_fields :
    [0x00011610, 0x10001610, 0x00311211, 0x01301211, 0x00121313, 0x01521416, 0x02710617, 0x12700617].map
      (fun w => decode w) = List.replicate 8 (.error .nonZeroField) := by decide

theorem test_encode_primegen : encode (.primegen 6 6 6 0) = 0x06600617 := by decide
theorem test_encode_li : encode (.li 15 1048575) = 0xFFFFFF01 := by decide

theorem test_asm : asm (.barrett 12 11 6) = "BARRETT x12, x11, x6" ∧ asm (.li 1 65537) = "LI x1, 65537" := by
  decide

/-! ### the commands' values, W = 64 -/

/-- BL-9, BL-11. -/
theorem test_bitlen : bitLength 17219 = 15 ∧ bitLength (2 ^ 64 - 1) = 64 := by decide +kernel
/-- MO-1. -/
theorem test_mont_zero : montgomeryConstants 0 = .error .badOperand := by decide
/-- MO-13. -/
theorem test_mont : montgomeryConstants 4611686047418417197 = .ok ⟨63, 4611675349728599980⟩ := by decide +kernel
/-- BA-16: the one overflowing value of 63 bits. -/
theorem test_barrett_overflow : barrettConstants 64 (2 ^ 62) = .error .rangeOverflow := by decide +kernel
/-- BA-17. -/
theorem test_barrett : barrettConstants 64 (2 ^ 62 + 1) = .ok ⟨126, 0xFFFFFFFFFFFFFFFC⟩ := by decide +kernel
/-- MI-6. -/
theorem test_modinv_no_inverse : modinvValue 0 5 = .error .arithmeticInvariantViolation := by decide
/-- MI-14. -/
theorem test_modinv : modinvValue 65537 4611686042049708060 = .ok 4167595671550971353 := by decide +kernel
/-- MD-4. -/
theorem test_moddec_one : moddecValue 14849 1 = .error .badOperand := by decide
/-- MD-8. -/
theorem test_moddec : moddecValue 4167595671550971353 4294967311 = .ok 2290644863 := by decide +kernel
/-- PH-8. -/
theorem test_phi_overflow : phiValue 64 (2 ^ 33 + 1) (2 ^ 31 + 1) = .error .rangeOverflow := by decide +kernel
/-- PH-9. -/
theorem test_phi : phiValue 64 (2 ^ 33 + 1) (2 ^ 31) = .ok 0xFFFFFFFE00000000 := by decide +kernel
/-- FE-4: the threshold itself rejects. -/
theorem test_fermat_equality : fermatVerdict 64 6 3 = .ok ⟨18, 3, false⟩ := by decide +kernel
/-- FE-14. -/
theorem test_fermat :
    fermatVerdict 64 4294967311 1073741827 = .ok ⟨4611686047418417197, 1518500254, true⟩ := by decide +kernel

/-- A random source for the vectors of PRIMEGEN: its state counts the draws, its answers are those of the retry example
("then ATT = 2 and `rng = g4`"), which break the contract of R9. -/
def retryDraw (b : Nat) (g : RngState) : Nat × RngState :=
  (match g.code, b with
    | 0, 9 => 7
    | 1, 7 => 5
    | 2, 10 => 257
    | 3, 6 => 67
    | _, _ => 0, ⟨g.code + 1⟩)

/-- The retry of L2.9: FE-3 rejects the first attempt, FE-10 accepts the second. -/
theorem test_primegen_retry : primePair 64 16 retryDraw 8 ⟨0⟩ = .ok ⟨257, 67, 17219, 2, ⟨4⟩⟩ := by decide +kernel
/-- PG-8, PG-9, PG-10: InvalidInput before Exhaustion; Exhaustion; RangeOverflow. -/
theorem test_primegen_faults :
    primePair 64 0 retryDraw 2 ⟨0⟩ = .error .invalidInput ∧
      primePair 64 0 retryDraw 8 ⟨0⟩ = .error .primeGenerationExhaustion ∧
      primePair 64 16 retryDraw 33 ⟨0⟩ = .error .rangeOverflow := by decide +kernel

/-! ### single steps -/

/-- The reset state with some registers written and STATE set. -/
def stateWith (regs : List (Reg × Nat)) (e : ExecState) : State := { State.reset.writeRegs regs with execState := e }

/-- The next state of an outcome meets a test. -/
def nextMeets (o : Host.Outcome State Fault Refusal) (test : State → Bool) : Bool :=
  match o with
  | .next t => test t
  | _ => false

/-- LI-3, as the first command after reset. -/
theorem test_step_li :
    nextMeets (step (State.reset.withFetchWord 32 0xFFFFFF01)) (fun t => t.reg 15 == 1048575 && t.statusWord == 2) =
      true := by decide
/-- PG-5 on reset's x0 = 0: InvalidInput, STATUS 0x00000104. -/
theorem test_step_primegen :
    nextMeets (step (State.reset.withFetchWord 32 0x02700617)) (fun t => t.statusWord == 0x104) = true := by decide
/-- FE-8 on reset's zeros. -/
theorem test_step_fermat :
    nextMeets (step (State.reset.withFetchWord 32 0x00521416)) (fun t => t.statusWord == 2 && !t.acc) = true := by
  decide
/-- IL-1: STATUS 0x00000604. -/
theorem test_step_illegal :
    nextMeets (step (State.reset.withFetchWord 32 0)) (fun t => t.statusWord == 0x604 && t.cmd == 0) = true := by
  decide
/-- P4: a fault clears the registers. -/
theorem test_step_modinv_fault :
    nextMeets ((stateWith [(1, 4), (2, 6)] .busy).placeCommand 0x00021313 |> step)
      (fun t => t.statusWord == 0x204 && t.reg 1 == 0 && t.cmd == 0x00021313) = true := by decide
/-- MI-16: a source that is also the destination. -/
theorem test_step_modinv_in_place :
    nextMeets (exec (.modinv 1 1 2) (stateWith [(1, 3), (2, 7)] .busy)) (fun t => t.reg 1 == 5 && t.reg 2 == 7) =
      true := by decide
/-- MO-15: `rd = rk`, rr remains. -/
theorem test_exec_mont_same_destination :
    nextMeets (exec (.mont 2 2 1) (stateWith [(1, 13)] .busy)) (fun t => t.reg 2 == 9) = true := by decide

/-! ### the register window, W = 64, at bus address 0x4000 (L2.11) -/

/-- The answer to a read, W = 64. -/
def readAt (off : Nat) (s : State) : Option BusResponse := (s.accessAt 64 0x4000 (.read (0x4000 + off))).response

/-- BU-1, BU-2, BU-3, BU-15. -/
theorem test_bus_constants :
    readAt 0x000 State.reset = some (.data 0x47484501) ∧ readAt 0x004 State.reset = some (.data 0x00100040) ∧
      readAt 0x008 State.reset = some (.data 0) ∧ readAt 0x00C State.reset = some (.data 0) := by decide
/-- BU-5, BU-6, BU-7. -/
theorem test_bus_register_words :
    let s := (State.reset.accessAt 64 0x4000 (.write 0x5010 0xC000002D)).accessAt 64 0x4000 (.write 0x5014 0x40000006)
    s.reg 2 = 0x40000006C000002D ∧ readAt 0x1010 s = some (.data 0xC000002D) ∧
      readAt 0x1014 s = some (.data 0x40000006) ∧
      (s.accessAt 64 0x4000 (.write 0x5014 0)).reg 2 = 0xC000002D := by decide +kernel
/-- BU-8, BU-10, BU-12. -/
theorem test_bus_edges :
    readAt 0x1080 State.reset = some .outsideWindow ∧ readAt 0x107C State.reset = some (.data 0) ∧
      readAt 0x01C State.reset = some .busError ∧ readAt 0xFFC State.reset = some .busError ∧
      readAt 0x012 State.reset = some .busError ∧
      (State.reset.accessAt 64 0x4000 (.odd .bits8 0x4008)).response = some .busError ∧
      (State.reset.accessAt 64 0x4000 (.read 0x3FFC)).response = some .outsideWindow := by decide
/-- BU-11, BU-13, BU-14. -/
theorem test_bus_writes_refused :
    [(0x000, 1), (0x008, 0), (0x018, 0), (0x00C, 2), (0x00C, 0)].map
      (fun p => (State.reset.accessAt 64 0x4000 (.write (0x4000 + p.1) p.2)).response) =
      [some .busError, some .busError, some .busError, some .busError, some .ok] := by decide
/-- BU-16, BU-17, BU-18. -/
theorem test_bus_busy :
    let s := State.reset.accessAt 64 0x4000 (.write 0x4010 0x00021313)
    readAt 0x008 s = some (.data 1) ∧ readAt 0x010 s = some .busError ∧ readAt 0x1000 s = some .busError ∧
      (s.accessAt 64 0x4000 (.write 0x4014 5)).response = some .busError ∧
      (s.accessAt 64 0x4000 (.write 0x400C 1)).execState = .idle := by decide
/-- BU-19, BU-20, BU-22. -/
theorem test_bus_faulted :
    let s := ((stateWith [(1, 4)] .busy).launch 0x00021313).faultEntry .arithmeticInvariantViolation
    readAt 0x1008 s = some (.data 0) ∧ readAt 0x018 s = some (.data 0) ∧ readAt 0x010 s = some (.data 0x00021313) ∧
      readAt 0x008 s = some (.data 0x204) ∧
      (s.accessAt 64 0x4000 (.write 0x4010 1)).response = some .busError := by decide

/-! ### the host's side -/

/-- The records of KG1. -/
def kg1Public : PublicKey := { e := 65537, n := 17219, montgomeryBitLength := 15, montgomeryRr := 16641, blockSize := 1 }
def kg1Private : PrivateKey :=
  { d := 14849, n := 17219, p := 257, q := 67, dp := 1, dq := 65, qInvModP := 234, barrettPShift := 18
    barrettPFactor := 1020, barrettQShift := 14, barrettQFactor := 244 }

/-- KG1: m = 12345 gives c = 9518, and back. -/
theorem test_round_trip : kg1Public.encrypt 12345 = 9518 ∧ kg1Private.crtDecrypt 9518 = 12345 := by decide +kernel
/-- R160: 17219 is rendered `0x4343` and 65537 `0x10001`. -/
theorem test_render : renderHex 17219 = "0x4343" ∧ renderHex 65537 = "0x10001" := by decide +kernel

/-! ### witnesses: the hypotheses of each statement are met, each clause at its boundary -/

/-- A value below `2^64` in every general register. -/
theorem reg_stateWith_lt (regs : List (Reg × Nat)) (e : ExecState) (h : ∀ p ∈ regs, p.2 < 2 ^ 64) (r : Reg) :
    (stateWith regs e).reg r < 2 ^ Config.W := by
  refine Config.lt_two_pow_W ?_
  have h0 : (stateWith regs e).reg r = (State.reset.writeRegs regs).reg r := rfl
  rw [h0]
  rcases State.reg_writeRegs_cases State.reset r regs with h1 | h1
  · rw [h1]; simp
  · exact h _ h1

/-- States in IDLE and in BUSY that meet the invariant. -/
theorem witness_inv (regs : List (Reg × Nat)) (e : ExecState) (h : ∀ p ∈ regs, p.2 < 2 ^ 64) (he : e ≠ .faulted) :
    EngineInv (stateWith regs e) where
  regs_fit := reg_stateWith_lt regs e h
  done_idle hd := absurd (show (State.reset.writeRegs regs).done = true from hd) (by simp [State.reset])
  faulted_code hf := absurd hf he
  no_fault_code _ := State.fcode_writeRegs _ _
  faulted_clear hf := absurd hf he

/-- A FAULTED state that meets the invariant. -/
theorem witness_inv_faulted : EngineInv (State.reset.faultEntry .badOperand) :=
  ⟨fun r => by simp, by decide, by decide, by decide, fun _ => ⟨fun r => by simp, by decide, by decide⟩⟩

theorem witness_ResetLeavesTheStatedState :
    (∃ s : State, State.reset.resetEngine = s.resetEngine) ∧ 0 < Config.W / 32 ∧
      Config.W / 32 - 1 < Config.W / 32 := by
  have := Config.W_min
  exact ⟨⟨_, rfl⟩, by omega, by omega⟩

theorem witness_ResetHasTwoCausesInEveryState :
    (∃ s : State, s.turns.head? = some .reset ∧ s.execState = .busy) ∧
      ∃ s : State, accessNext s (.write (Config.base + 0x00C) 1) ∧ s.execState = .faulted :=
  ⟨⟨{ stateWith [] .busy with turns := [.reset] }, rfl, rfl⟩,
    ⟨{ stateWith [] .faulted with turns := [.access (.write (Config.base + 0x00C) 1)] }, rfl, rfl⟩⟩

/-- The hypotheses of StepRunsTheDecodedCommand, CompleteEndsIdleOrFaulted, EveryBusyPeriodEnds: the engine's turn by an
empty list and by the head of the list, BUSY with a legal word, and IDLE. -/
theorem witness_engine_turn :
    (∃ s : State, engineNext s ∧ s.turns = [] ∧ s.execState = .busy ∧ decode s.cmd = .ok (.li 0 8)) ∧
      (∃ s : State, engineNext s ∧ s.turns ≠ [] ∧ s.execState = .busy ∧ decode s.cmd = .ok (.li 0 8)) ∧
      ∃ s : State, engineNext s ∧ s.execState ≠ .busy :=
  ⟨⟨{ stateWith [] .busy with cmd := 0x00008001 }, .inl rfl, rfl, rfl, by decide⟩,
    ⟨State.reset.withFetchWord 32 0x00008001, .inr rfl, by decide, rfl, by decide⟩,
    ⟨State.reset, .inl rfl, by decide⟩⟩

/-- The encoding clause of each command statement: a word under the row's mask. -/
theorem witness_masks :
    0x10001101#32 &&& 0x000000FF = 0x00000001 ∧ 0x00002310#32 &&& 0xFFFF00FF = 0x00000010 ∧
      0x00302411#32 &&& 0xFF0F00FF = 0x00000011 ∧ 0x00B06C12#32 &&& 0xFF0F00FF = 0x00000012 ∧
      0x00067A13#32 &&& 0xFFF000FF = 0x00000013 ∧ 0x00065814#32 &&& 0xFFF000FF = 0x00000014 ∧
      0x00076F15#32 &&& 0xFFF000FF = 0x00000015 ∧ 0x00521416#32 &&& 0xFF0000FF = 0x00000016 ∧
      0x02700617#32 &&& 0xF00F00FF = 0x00000017 := by decide

theorem witness_BitlenWritesTheBitLength : (stateWith [(1, 256)] .busy).reg 1 < 2 ^ Config.W :=
  reg_stateWith_lt _ _ (by decide) 1

theorem witness_MontWritesTheMontgomeryConstants :
    (stateWith [] .busy).reg 1 = 0 ∧ (stateWith [(1, 1)] .busy).reg 1 ≠ 0 := by decide

theorem witness_MontBitLengthIsBitlen :
    ∃ t u, exec (.mont 2 3 1) (stateWith [(1, 13)] .busy) = .next t ∧ t.execState = .idle ∧
      exec (.bitlen 3 1) (stateWith [(1, 13)] .busy) = .next u :=
  ⟨_, _, exec_of_result (r := { writes := [(3, 4), (2, 9)] }) (by rfl), rfl, exec_of_result (by rfl)⟩

/-- BARRETT: zero; the least modulus that overflows; one. -/
theorem witness_BarrettWritesTheBarrettConstants :
    (stateWith [] .busy).reg 1 = 0 ∧
      (∃ s : State, s.reg 1 ≠ 0 ∧ 2 ^ Config.W ≤ 2 ^ (2 * bitLength (s.reg 1)) / s.reg 1) ∧
      ∃ s : State, s.reg 1 ≠ 0 ∧ 2 ^ (2 * bitLength (s.reg 1)) / s.reg 1 < 2 ^ Config.W := by
  have hW := Config.W_min
  have e : (stateWith [(1, 2 ^ (Config.W - 2))] .busy).reg 1 = 2 ^ (Config.W - 2) := rfl
  have hb : bitLength (2 ^ (Config.W - 2)) = Config.W - 1 :=
    (bitLength_eq_iff (by omega)).2
      ⟨Nat.pow_le_pow_right (by decide) (by omega), Nat.pow_lt_pow_right (by decide) (by omega)⟩
  refine ⟨by decide, ⟨_, by rw [e]; positivity, ?_⟩, stateWith [(1, 1)] .busy, by decide, ?_⟩
  · rw [e, hb, Nat.le_div_iff_mul_le (by positivity), ← pow_add]
    exact Nat.pow_le_pow_right (by decide) (by omega)
  · exact Config.lt_two_pow_W (by decide +kernel)

theorem witness_BarrettOverflowsExactlyAsTabulated :
    (stateWith [(1, 1)] .busy).reg 1 ≠ 0 ∧ (stateWith [(1, 1)] .busy).reg 1 < 2 ^ Config.W :=
  ⟨by decide, reg_stateWith_lt _ _ (by decide) 1⟩

theorem witness_ModinvWritesTheInverse :
    (stateWith [(1, 7)] .busy).reg 2 = 0 ∧
      ((stateWith [(1, 4), (2, 6)] .busy).reg 2 ≠ 0 ∧
        Nat.gcd ((stateWith [(1, 4), (2, 6)] .busy).reg 1) ((stateWith [(1, 4), (2, 6)] .busy).reg 2) ≠ 1) ∧
      ((stateWith [(2, 1)] .busy).reg 2 ≠ 0 ∧
        Nat.gcd ((stateWith [(2, 1)] .busy).reg 1) ((stateWith [(2, 1)] .busy).reg 2) = 1) := by decide

/-- MI-1 and MI-2: 3 and 10 modulo 7. -/
theorem witness_ModinvReducesItsOperand :
    ∃ t t', (stateWith [(1, 3), (2, 7)] .busy).reg 1 % 7 = (stateWith [(1, 10), (2, 7)] .busy).reg 1 % 7 ∧
      exec (.modinv 3 1 2) (stateWith [(1, 3), (2, 7)] .busy) = .next t ∧
      exec (.modinv 3 1 2) (stateWith [(1, 10), (2, 7)] .busy) = .next t' ∧ t.execState = .idle :=
  ⟨_, _, by decide, exec_of_result (r := { writes := [(3, 5)] }) (by rfl),
    exec_of_result (r := { writes := [(3, 5)] }) (by rfl), rfl⟩

theorem witness_ModdecReducesModuloPMinusOne :
    (stateWith [(1, 1)] .busy).reg 1 ≤ 1 ∧ 2 ≤ (stateWith [(1, 2)] .busy).reg 1 := by decide

/-- PHI: a zero source; a product of `2^W`; a product of 0. -/
theorem witness_PhiMultipliesThePredecessors :
    (stateWith [(2, 5)] .busy).reg 1 = 0 ∧
      (∃ s : State, s.reg 1 ≠ 0 ∧ s.reg 2 ≠ 0 ∧ 2 ^ Config.W ≤ (s.reg 1 - 1) * (s.reg 2 - 1)) ∧
      ∃ s : State, s.reg 1 ≠ 0 ∧ s.reg 2 ≠ 0 ∧ (s.reg 1 - 1) * (s.reg 2 - 1) < 2 ^ Config.W := by
  have hW := Config.W_min
  have e1 : (stateWith [(1, 2 ^ (Config.W - 1) + 1), (2, 3)] .busy).reg 1 = 2 ^ (Config.W - 1) + 1 := rfl
  have e2 : (stateWith [(1, 2 ^ (Config.W - 1) + 1), (2, 3)] .busy).reg 2 = 3 := rfl
  refine ⟨by decide, ⟨stateWith [(1, 2 ^ (Config.W - 1) + 1), (2, 3)] .busy, by rw [e1]; exact Nat.succ_ne_zero _,
    by rw [e2]; decide, ?_⟩, stateWith [(1, 1), (2, 5)] .busy, by decide, by decide, Config.lt_two_pow_W (by decide)⟩
  rw [e1, e2, Nat.add_sub_cancel, show 3 - 1 = 2 ^ 1 by decide, ← pow_add]
  exact Nat.pow_le_pow_right (by decide) (by omega)

/-- FERMAT: a product of `2^W`; a product of 0. -/
theorem witness_FermatTestsThePair :
    (∃ s : State, 2 ^ Config.W ≤ s.reg 1 * s.reg 2) ∧ ∃ s : State, s.reg 1 * s.reg 2 < 2 ^ Config.W := by
  have hW := Config.W_min
  have e1 : (stateWith [(1, 2 ^ (Config.W - 1)), (2, 2)] .busy).reg 1 = 2 ^ (Config.W - 1) := rfl
  have e2 : (stateWith [(1, 2 ^ (Config.W - 1)), (2, 2)] .busy).reg 2 = 2 ^ 1 := rfl
  refine ⟨⟨stateWith [(1, 2 ^ (Config.W - 1)), (2, 2)] .busy, ?_⟩, stateWith [] .busy, Config.lt_two_pow_W (by decide)⟩
  rw [e1, e2, ← pow_add]
  exact Nat.pow_le_pow_right (by decide) (by omega)

/-- A state for PRIMEGEN: the length in x0, and MAXATT. -/
def primeState (L : Nat) (maxatt : Word) : State := (stateWith [(0, L)] .busy).setMaxatt maxatt

/-- The draws of a first attempt are accepted, whatever they are (R96). -/
theorem first_attempt_accepted (L : Nat) (g : RngState) (h : 3 ≤ L) :
    FermatAccepts (attemptP Config.drawPrime L g 1) (attemptQ Config.drawPrime L g 1) := by
  refine fermatAccepts_of_double_lt ?_
  have hp := Config.drawPrime_min (L + 1) g (by omega)
  have hq := Config.drawPrime_max (L - 1) (Config.drawPrime (L + 1) g).2 (by omega)
  rw [show L + 1 - 1 = L - 1 + 1 by omega, pow_succ] at hp
  simp only [attemptP, attemptQ, Nat.sub_self, rngAfter]
  omega

/-- PRIMEGEN: `2·L > W`; no attempt with L = 2, and none with MAXATT = 0; the first of one attempt accepted. The clause
for a later attempt is met by a `DrawPrime` that breaks its contract only (R96); `test_primegen_retry` runs it. -/
theorem witness_PrimegenRunsTheBoundedRetryLoop :
    Config.W < 2 * (primeState Config.W 16).reg 0 ∧
      (2 * (primeState 2 16).reg 0 ≤ Config.W ∧ (primeState 2 16).reg 0 - 2 ≤ (primeState 2 16).maxatt.toNat ∧
        ∀ k, 1 ≤ k → ¬ k + 2 ≤ (primeState 2 16).reg 0) ∧
      (2 * (primeState 3 0).reg 0 ≤ Config.W ∧ (primeState 3 0).maxatt.toNat < (primeState 3 0).reg 0 - 2 ∧
        ∀ k, 1 ≤ k → ¬ k ≤ (primeState 3 0).maxatt.toNat) ∧
      (2 * (primeState 3 1).reg 0 ≤ Config.W ∧ 1 ≤ (primeState 3 1).maxatt.toNat ∧ 1 + 2 ≤ (primeState 3 1).reg 0 ∧
        FermatAccepts (attemptP Config.drawPrime ((primeState 3 1).reg 0) (primeState 3 1).rng 1)
          (attemptQ Config.drawPrime ((primeState 3 1).reg 0) (primeState 3 1).rng 1)) := by
  have hW := Config.W_min
  have e0 : (primeState Config.W 16).reg 0 = Config.W := rfl
  have e1 : (primeState 2 16).reg 0 = 2 := rfl
  have e2 : (primeState 3 0).reg 0 = 3 := rfl
  have e3 : (primeState 3 1).reg 0 = 3 := rfl
  have m2 : (primeState 3 0).maxatt.toNat = 0 := rfl
  rw [e0, e1, e2, e3, m2]
  exact ⟨by omega, ⟨by omega, by decide, fun k h => by omega⟩, ⟨by omega, by decide, fun k h => by omega⟩,
    by omega, by decide, by decide, first_attempt_accepted _ _ (by decide)⟩

theorem witness_PrimegenOutcomeTable :
    Config.W < 2 * (primeState Config.W 16).reg 0 ∧ (primeState 2 16).reg 0 ≤ 2 ∧
      (3 ≤ (primeState 3 0).reg 0 ∧ 2 * (primeState 3 0).reg 0 ≤ Config.W ∧ (primeState 3 0).maxatt = 0) ∧
      (3 ≤ (primeState 3 1).reg 0 ∧ 2 * (primeState 3 1).reg 0 ≤ Config.W ∧ (primeState 3 1).maxatt ≠ 0) := by
  have hW := Config.W_min
  have e0 : (primeState Config.W 16).reg 0 = Config.W := rfl
  have e2 : (primeState 3 0).reg 0 = 3 := rfl
  have e3 : (primeState 3 1).reg 0 = 3 := rfl
  rw [e0, e2, e3]
  exact ⟨by omega, by decide, ⟨by decide, by omega, rfl⟩, by decide, by omega, by decide⟩

/-- A PRIMEGEN for L = 3 with MAXATT = 1 completes, whatever the draws are (R96). -/
theorem primegen_completes {s : State} (hL : s.reg 0 = 3) (hm : s.maxatt = 1) :
    ∃ t, exec (.primegen 6 7 2 0) s = .next t ∧ t.execState = .idle := by
  have hW := Config.W_min
  have hok := (fermatOk_iff _ _).2 (first_attempt_accepted 3 s.rng (by decide))
  have h : ∃ k, primePair Config.W s.maxatt.toNat Config.drawPrime (s.reg 0) s.rng = .ok k := by
    rw [hL, hm, show (1 : Word).toNat = 1 from rfl, primePair_of_le (by omega), show 3 - 1 = 0 + 2 by decide,
      primeAttempts_step _ _ _ _ _ _ (by decide)]
    exact ⟨_, if_pos hok⟩
  obtain ⟨k, hk⟩ := h
  have hr : commandResult (.primegen 6 7 2 0) s = .ok
      { writes := [(2, k.n), (7, k.q), (6, k.p)], att := some (BitVec.ofNat 32 k.attempt), rng := some k.rng } := by
    rw [commandResult, hk]; rfl
  exact ⟨_, exec_of_result hr, rfl⟩

theorem witness_GeneratedPairInvariant :
    ∃ t, exec (.primegen 6 7 2 0) (primeState 3 1) = .next t ∧ t.execState = .idle :=
  primegen_completes rfl rfl

theorem witness_PrimegenNeverRequestsFewerThanTwoBits :
    ∃ draw draw' : Nat → RngState → Nat × RngState, draw ≠ draw' ∧ ∀ b g, 2 ≤ b → draw b g = draw' b g :=
  ⟨fun _ g => (0, g), fun b g => (if b = 1 then 1 else 0, g), fun h => by
    have := congrArg (fun f => (f 1 ⟨0⟩).1) h
    simp at this, fun b g h => by simp [show b ≠ 1 by omega]⟩

theorem witness_IllegalWordRaisesIllegalCommand :
    ∃ s : State, s.execState = .busy ∧ engineNext s ∧ ∀ i, decode s.cmd ≠ .ok i :=
  ⟨stateWith [] .busy, rfl, .inl rfl, fun i h => by
    have e : decode (stateWith [] .busy).cmd = .error .reservedOpcode := by decide
    rw [e] at h; cases h⟩

theorem witness_EachCommandRecordsOnlyItsFaultCodes :
    ∃ t, exec (.moddec 0 1 2) (stateWith [] .busy) = .next t ∧ t.execState = .faulted :=
  ⟨_, rfl, rfl⟩

/-- Two different states that the same word takes to the same fault. -/
theorem witness_FaultedEngineRevealsNothing :
    ∃ s s' t t' : State, s ≠ s' ∧ s.cmd = s'.cmd ∧ s.maxatt = s'.maxatt ∧ s.complete = .next t ∧
      s'.complete = .next t' ∧ t.execState = .faulted ∧ t'.execState = .faulted ∧ t.fcode = t'.fcode :=
  ⟨stateWith [] .busy, stateWith [(1, 7)] .busy, _, _, by decide, rfl, rfl,
    complete_of_illegal (e := .reservedOpcode) (by decide), complete_of_illegal (e := .reservedOpcode) (by decide),
    rfl, rfl, rfl⟩

/-- STATE changes: a launch, an end of a command, a reset. -/
theorem witness_ExecutionStateTransitions :
    (∃ s t : State, step s = .next t ∧ s.execState = .idle ∧ t.execState ≠ s.execState) ∧
      (∃ s t : State, step s = .next t ∧ s.execState = .busy ∧ t.execState ≠ s.execState) ∧
      ∃ s t : State, step s = .next t ∧ s.execState = .faulted ∧ t.execState ≠ s.execState := by
  refine ⟨⟨{ State.reset with turns := [.access (.write (Config.base + 0x010) 1)] }, _, step_of_access rfl, rfl, ?_⟩,
    ⟨stateWith [] .busy, _, rfl, rfl, by decide⟩,
    ⟨{ stateWith [] .faulted with turns := [.reset] }, _, rfl, rfl, by decide⟩⟩
  rw [busAccess_write_at, busWrite_of_target (t := .cmd) rfl rfl rfl]
  decide

/-- EngineInvariantIsKept, and the statements over every step: an invariant state with its next state. -/
theorem witness_EngineInvariantIsKept :
    ∃ t, EngineInv (stateWith [(1, 7)] .busy) ∧ step (stateWith [(1, 7)] .busy) = .next t :=
  ⟨_, witness_inv _ _ (by decide) (by decide), rfl⟩

/-- A reset that changes the random state. -/
theorem witness_RandomStateChangesOnlyByPrimegenOrReset : ∃ s t : State, step s = .next t ∧ t.rng ≠ s.rng := by
  refine ⟨{ State.reset with
    turns := [.reset], rng := ⟨(Config.initRng (Config.seedAt 1)).code + 1⟩ }, _, rfl, fun h => ?_⟩
  have := congrArg RngState.code h
  exact absurd this (Nat.ne_of_lt (Nat.lt_succ_self _))

/-- FE-9: a FERMAT that sets ACC. -/
theorem witness_AccChangesOnlyByFermatFaultOrReset :
    ∃ s t : State, step s = .next t ∧ t.acc ≠ s.acc ∧ s.execState = .busy :=
  ⟨{ stateWith [(1, 1)] .busy with cmd := 0x00521416 }, _, rfl, by decide, rfl⟩

/-- CMD and MAXATT changed by a write, ATT by a fault. -/
theorem witness_ControlRegistersChangeOnlyAsStated :
    (∃ s t : State, step s = .next t ∧ t.cmd ≠ s.cmd) ∧ (∃ s t : State, step s = .next t ∧ t.maxatt ≠ s.maxatt) ∧
      ∃ s t : State, step s = .next t ∧ t.att ≠ s.att := by
  refine ⟨⟨{ State.reset with turns := [.access (.write (Config.base + 0x010) 1)] }, _, step_of_access rfl, ?_⟩,
    ⟨{ State.reset with maxatt := 0, turns := [.access (.write (Config.base + 0x014) 1)] }, _, step_of_access rfl, ?_⟩,
    ⟨{ stateWith [] .busy with att := 1 }, _, rfl, by decide⟩⟩
  · rw [busAccess_write_at, busWrite_of_target (t := .cmd) rfl rfl rfl]
    decide
  · rw [busAccess_write_at, busWrite_of_target (t := .maxatt) rfl rfl rfl]
    decide

/-- A register changed by an LI. -/
theorem witness_RegistersChangeOnlyAsStated : ∃ s t : State, step s = .next t ∧ t.reg 1 ≠ s.reg 1 :=
  ⟨State.reset.withFetchWord 32 0x10001101, _, rfl, by decide⟩

/-- Two states that agree on the source and differ elsewhere. -/
theorem witness_CommandsDependOnlyOnTheirSources :
    ∃ t t', (∀ r ∈ sources (.bitlen 6 1), (stateWith [(1, 5)] .busy).reg r = (stateWith [(1, 5), (2, 9)] .idle).reg r) ∧
      exec (.bitlen 6 1) (stateWith [(1, 5)] .busy) = .next t ∧
      exec (.bitlen 6 1) (stateWith [(1, 5), (2, 9)] .idle) = .next t' ∧ t.execState = .idle :=
  ⟨_, _, by decide, exec_of_result rfl, exec_of_result rfl, rfl⟩

/-- The same for the clauses on a fault, ACC and the random source: BARRETT of 0, FE-9's FERMAT, PRIMEGEN for L = 3. -/
theorem witness_CommandsDependOnlyOnTheirSources_clauses :
    (∃ t t', (∀ r ∈ sources (.barrett 6 7 1), (stateWith [] .busy).reg r = (stateWith [(2, 9)] .idle).reg r) ∧
      exec (.barrett 6 7 1) (stateWith [] .busy) = .next t ∧
      exec (.barrett 6 7 1) (stateWith [(2, 9)] .idle) = .next t' ∧ t.execState = .faulted) ∧
    (∃ s' t t', (∀ r ∈ sources (.fermat 4 5 1 2), (stateWith [(1, 1)] .busy).reg r = s'.reg r) ∧ s'.acc = true ∧
      exec (.fermat 4 5 1 2) (stateWith [(1, 1)] .busy) = .next t ∧ exec (.fermat 4 5 1 2) s' = .next t' ∧
      t.execState = .idle ∧ writesAcc (.fermat 4 5 1 2) = true) ∧
    (∃ s' t t', (∀ r ∈ sources (.primegen 6 7 2 0), (primeState 3 1).reg r = s'.reg r) ∧ s'.att = 5 ∧
      (primeState 3 1).maxatt = s'.maxatt ∧ (primeState 3 1).rng = s'.rng ∧
      exec (.primegen 6 7 2 0) (primeState 3 1) = .next t ∧ exec (.primegen 6 7 2 0) s' = .next t' ∧
      t.execState = .idle ∧ usesRandom (.primegen 6 7 2 0) = true) := by
  obtain ⟨t, h, hi⟩ := primegen_completes (s := primeState 3 1) rfl rfl
  obtain ⟨t', h', -⟩ := primegen_completes (s := { primeState 3 1 with att := 5 }) rfl rfl
  exact ⟨⟨_, _, by decide, rfl, rfl, rfl⟩,
    ⟨{ stateWith [(1, 1), (3, 9)] .idle with acc := true }, _, _, by decide, rfl, rfl, rfl, rfl, rfl⟩,
    { primeState 3 1 with att := 5 }, t, t', by decide, rfl, rfl, rfl, h, h', hi, rfl⟩

theorem witness_EncodeOfDecodeIsTheWord : decode 0xFFFFFF01 = .ok (.li 15 1048575) := by decide

theorem witness_StatusShowsTheState :
    EngineInv (stateWith [] .busy) ∧ EngineInv (State.reset.faultEntry .badOperand) :=
  ⟨witness_inv _ _ (by decide) (by decide), witness_inv_faulted⟩

/-- Offsets: the first and the last word of the window, and a misaligned one. -/
theorem witness_AdmissionTable :
    (0 < 0x1000 + 2 * Config.W ∧ 0 % 4 = 0) ∧
      (0x1000 + 2 * Config.W - 4 < 0x1000 + 2 * Config.W ∧ (0x1000 + 2 * Config.W - 4) % 4 = 0) ∧
      EngineInv (State.reset.faultEntry .badOperand) := by
  have := Config.W_mod
  exact ⟨⟨by omega, rfl⟩, ⟨by omega, by omega⟩, witness_inv_faulted⟩

theorem witness_OnlyAlignedWordsAreAdmitted :
    2 < 0x1000 + 2 * Config.W ∧ 2 % 4 ≠ 0 ∧ 0x1000 + 2 * Config.W - 1 < 0x1000 + 2 * Config.W ∧
      (0x1000 + 2 * Config.W - 1) % 4 ≠ 0 := by
  have := Config.W_mod
  omega

theorem witness_RefusedAccessChangesNothing :
    (State.reset.busAccess (.write (Config.base + 0x000) 1)).response = some .busError := by
  rw [busAccess_write_at]; rfl

/-- Above the window; and below BASE, for every BASE but 0. The spec's constraints admit such a BASE. -/
theorem witness_OutsideTheWindowTheEngineIsSilent :
    (∃ (a : BusAccess) (addr : Nat), a = .read addr ∧ Config.base + (0x1000 + 2 * Config.W) ≤ addr) ∧
      (0 < Config.base → ∃ (a : BusAccess) (addr : Nat), a = .odd .burst addr ∧ addr < Config.base) ∧
      ∃ P : Params, P.Valid ∧ 0 < P.base :=
  have d := Params.default_valid
  ⟨⟨_, _, rfl, le_rfl⟩, fun h => ⟨_, _, rfl, Nat.sub_one_lt (Nat.ne_of_gt h)⟩, { base := 0x4000 },
    ⟨d.width_mod, d.width_min, d.width_max, d.draw_min, d.draw_max, d.draw_prp⟩, by decide⟩

/-- RegisterWordsReadAndWrite, CmdWriteLaunchesTheCommand, MaxattIsWritableInIdle: IDLE, the first and the last word. -/
theorem witness_RegisterWordsReadAndWrite :
    (stateWith [(1, 7)] .idle).execState = .idle ∧ (stateWith [(1, 7)] .idle).reg 1 < 2 ^ Config.W ∧
      0 < Config.W / 32 ∧ Config.W / 32 - 1 < Config.W / 32 := by
  have := Config.W_min
  exact ⟨rfl, reg_stateWith_lt _ _ (by decide) 1, by omega, by omega⟩

theorem witness_WindowIsLittleEndian :
    (stateWith [(1, 7)] .faulted).execState ≠ .busy ∧ 0 < Config.W / 8 ∧ Config.W / 8 - 1 < Config.W / 8 := by
  have := Config.W_min
  exact ⟨by decide, by omega, by omega⟩

theorem witness_CtrlWrites : ∃ v : Word, v ≠ 0 ∧ v ≠ 1 := ⟨2, by decide, by decide⟩

theorem witness_CommandAndOperandsAreFixedWhileBusy :
    (stateWith [] .busy).execState = .busy ∧
      ∀ a ∈ [BusAccess.read 0, BusAccess.write (Config.base + 0x010) 1, BusAccess.write (Config.base + 0x1000) 5],
        ¬ isResetWrite a := by
  refine ⟨rfl, fun a ha => ?_⟩
  simp only [List.mem_cons, List.not_mem_nil, or_false] at ha
  rcases ha with rfl | rfl | rfl <;> simp [isResetWrite, controlAddr]

/-- A host program's accesses and the engine's turn between them. -/
theorem witness_PollSeesTheCommandEnd :
    ∃ s : State, s.execState = .idle ∧
      s.turns = .access (.write (Config.base + 0x010) (encode (.li 0 8))) :: .engine ::
        .access (.read (Config.base + 0x008)) :: [] :=
  ⟨{ State.reset with
      turns := .access (.write (Config.base + 0x010) (encode (.li 0 8))) :: .engine ::
        .access (.read (Config.base + 0x008)) :: [] }, rfl, rfl⟩

theorem witness_HostWriteThenHostRead :
    (stateWith [(1, 7)] .idle).execState = .idle ∧ (stateWith [(1, 7)] .idle).reg 1 < 2 ^ Config.W ∧
      0 < 2 ^ Config.W ∧ 2 ^ Config.W - 1 < 2 ^ Config.W := by
  have : 0 < 2 ^ Config.W := by positivity
  exact ⟨rfl, reg_stateWith_lt _ _ (by decide) 1, this, by omega⟩

/-- The registers of P2's CRT. -/
def p2Crt : CrtOperands := { keygenCrt with rp := 1, rq := 2, rdd := 3 }

/-- P2's numbers meet the conditions of success; zeros do not. -/
theorem witness_CrtDeliversTheCrtConstants :
    p2Crt.wellFormed = true ∧ (stateWith [(1, 257), (2, 67), (3, 14849)] .idle).execState = .idle ∧
      2 ≤ (stateWith [(1, 257), (2, 67), (3, 14849)] .idle).reg p2Crt.rp ∧
      2 ≤ (stateWith [(1, 257), (2, 67), (3, 14849)] .idle).reg p2Crt.rq ∧ Nat.gcd 67 257 = 1 ∧
      2 ^ (2 * bitLength 257) / 257 < 2 ^ Config.W ∧ 2 ^ (2 * bitLength 67) / 67 < 2 ^ Config.W ∧
      ¬ 2 ≤ (stateWith [] .idle).reg p2Crt.rp :=
  ⟨by decide, rfl, by decide, by decide, by decide, Config.lt_two_pow_W (by decide +kernel),
    Config.lt_two_pow_W (by decide +kernel), by decide⟩

/-- KEYGEN: `2·L > W`; L = 2; L = 3 with MAXATT 0 and 1. Of the last two clauses' conditions, one the negation of the
other, one holds whatever the draws are. -/
theorem witness_KeygenDeliversBothRecordsOrAFault :
    EngineInv (stateWith [] .idle) ∧ (stateWith [] .idle).execState = .idle ∧
      (2 * Config.W / 2 < 2 ^ Config.W ∧ Config.W < 2 * (2 * Config.W / 2)) ∧ 4 / 2 ≤ 2 ∧
      (3 ≤ 6 / 2 ∧ 2 * (6 / 2) ≤ Config.W ∧ 6 / 2 < 2 ^ Config.W) ∧ ((stateWith [] .idle).setMaxatt 0).maxatt = 0 ∧
      ((stateWith [] .idle).setMaxatt 1).maxatt ≠ 0 := by
  have hW := Config.W_min
  have h : Config.W < 2 ^ Config.W := Nat.lt_two_pow_self
  exact ⟨witness_inv _ _ (by decide) (by decide), rfl, ⟨by omega, by omega⟩, by decide, ⟨by decide, by omega, by omega⟩,
    by decide, by decide⟩

/-- KG3's records (p = 17, q = 5) and its message 42. -/
def kg3Public : PublicKey := { e := 65537, n := 85, montgomeryBitLength := 7, montgomeryRr := 64, blockSize := 0 }
def kg3Private : PrivateKey :=
  { d := 1, n := 85, p := 17, q := 5, dp := 1, dq := 1, qInvModP := 7, barrettPShift := 10
    barrettPFactor := 60, barrettQShift := 6, barrettQFactor := 12 }

theorem witness_KeygenRecordsRoundTrip :
    RecordsOf 17 5 kg3Public kg3Private ∧ Nat.Prime 17 ∧ Nat.Prime 5 ∧ (5 : Nat) ≠ 2 ∧ 42 < kg3Public.n :=
  ⟨by constructor <;> decide +kernel, by norm_num, by norm_num, by decide, by decide⟩

/-- P5 (a) in small: a MODDEC on zeros faults, and the program ends in FAULTED. -/
theorem witness_FaultedProgramLeavesNothing :
    EngineInv (stateWith [] .idle) ∧
      ∃ t, runProgram [.command (.moddec 0 1 2)] (stateWith [] .idle) = .next t ∧ t.execState = .faulted := by
  refine ⟨witness_inv _ _ (by decide) (by decide), ?_⟩
  rcases runProgram_command_cases (i := .moddec 0 1 2) (s := stateWith [] .idle) rfl (by decide) with
    ⟨c, -, t, ht, hf, -⟩ | ⟨r, hr, -⟩
  · exact ⟨t, ht [], hf⟩
  · obtain ⟨h, -⟩ := moddec_result hr
    exact absurd h (by decide)

theorem witness_KeygenWords : 0 ≤ 1048575 ∧ 1048575 ≤ 1048575 := by decide

end Sys2Proof.Tests
end

section
/-! MODINV as a function of the residue of its operand (`spec/00_scope.md` R17, `spec/43_crt_modinv.md` R130). -/

namespace Sys2Proof.Machine

open Sys2Proof

/-- R17: the algorithm reduces its operand first. -/
@[simp] theorem inv_mod (a m : Nat) : inv (a % m) m = inv a m := by
  simp only [inv, Nat.mod_mod]

@[simp] theorem modinvValue_mod (a m : Nat) : modinvValue (a % m) m = modinvValue a m := by
  simp only [modinvValue, (Nat.mod_modEq a m).gcd_eq, inv_mod]

/-- Inverse or fault, and which fault: all of it is settled by the residue. -/
theorem modinvValue_congr {a b m : Nat} (h : a % m = b % m) : modinvValue a m = modinvValue b m :=
  calc modinvValue a m = modinvValue (a % m) m := (modinvValue_mod a m).symm
    _ = modinvValue (b % m) m := by rw [h]
    _ = modinvValue b m := modinvValue_mod b m

theorem commandResult_modinv_congr {rd rs1 rs2 : Reg} {s s' : State} (hm : s.reg rs2 = s'.reg rs2)
    (ha : s.reg rs1 % s.reg rs2 = s'.reg rs1 % s.reg rs2) :
    commandResult (.modinv rd rs1 rs2) s = commandResult (.modinv rd rs1 rs2) s' := by
  simp only [commandResult, ← hm, modinvValue_congr ha]

/-- Settles O14: both runs retire one and the same pure result, so they end alike. -/
theorem modinvReducesItsOperand : Obligations.ModinvReducesItsOperand := by
  unfold Obligations.ModinvReducesItsOperand
  intro rd rs1 rs2 s s' t t' hm ha ht ht'
  have hres := commandResult_modinv_congr (rd := rd) hm ha
  rw [exec_eq_retire] at ht ht'
  rw [← hres] at ht'
  cases hr : commandResult (.modinv rd rs1 rs2) s with
  | ok r =>
    obtain ⟨-, v, -, -, rfl⟩ := modinv_result hr
    rw [hr] at ht ht'
    cases ht; cases ht'
    simp
  | error c =>
    rw [hr] at ht ht'
    cases ht; cases ht'
    simp

end Sys2Proof.Machine
end

section
/-! Every step keeps the engine's invariant (`spec/10_state.md` R20, R28, `spec/60_exceptions.md` R171, R176): first
that a command writes `W`-bit values only, then one lemma per operation of the state, then the step. -/

namespace Sys2Proof.Machine

open Sys2Proof

/-! ### a command writes values that fit a register -/

/-- Twice the width is itself a `W`-bit value; so the lengths and shifts the commands deliver are (R6, R13). -/
theorem lt_two_pow_W_of_le_double {v : Nat} (h : v ≤ 2 * Config.W) : v < 2 ^ Config.W := by
  have := Config.W_max
  exact Config.lt_two_pow_W (by omega)

theorem bitLength_le_W {v : Nat} (h : v < 2 ^ Config.W) : bitLength v ≤ Config.W := (bitLength_le_iff v _).2 h

theorem isqrt_le_self (v : Nat) : isqrt v ≤ v := (Nat.le_mul_self _).trans (isqrt_mul_self_le v)

/-- The pair an accepting loop delivers and its product fit, since a pair of an attempt has `2·L` bits at most (R91). -/
theorem primeAttempts_fit {maxatt L W : Nat} {g : RngState} {k : PrimePair} (hL : 2 * L ≤ W)
    (h : primeAttempts maxatt Config.drawPrime L (L - 1) 1 g = .ok k) :
    k.p < 2 ^ W ∧ k.q < 2 ^ W ∧ k.n < 2 ^ W := by
  obtain ⟨h1, -, h2, hn, -, g', hp, hq⟩ := primeAttempts_ok h
  have hp' : k.p < 2 ^ (L + k.attempt) := hp ▸ Config.drawPrime_max _ _ (by omega)
  have hq' : k.q < 2 ^ (L - k.attempt) := by
    rw [hq, show L - 1 + 1 - k.attempt = L - k.attempt by omega]
    exact Config.drawPrime_max _ _ (by omega)
  have hn' : k.n < 2 ^ (2 * L) := by
    calc k.n = k.p * k.q := hn
      _ < 2 ^ (L + k.attempt) * 2 ^ (L - k.attempt) := Nat.mul_lt_mul'' hp' hq'
      _ = 2 ^ (2 * L) := by rw [← pow_add]; congr 1; omega
  have grow {b : Nat} (hb : b ≤ W) : 2 ^ b ≤ 2 ^ W := Nat.pow_le_pow_right (by decide) hb
  exact ⟨hp'.trans_le (grow (by omega)), hq'.trans_le (grow (by omega)), hn'.trans_le (grow hL)⟩

/-- From registers that hold `W`-bit values a command that completes writes `W`-bit values. -/
theorem commandResult_fits {i : Instr} {s : State} {r : Result} (hs : ∀ q : Reg, s.reg q < 2 ^ Config.W)
    (h : commandResult i s = .ok r) : ∀ w ∈ r.writes, w.2 < 2 ^ Config.W := by
  cases i with
  | li rd imm20 =>
    cases h
    simpa [zextImm] using Config.lt_two_pow_W (imm20.isLt.trans (by decide))
  | bitlen rd rs1 =>
    cases h
    have := bitLength_le_W (hs rs1)
    simpa using lt_two_pow_W_of_le_double (by omega)
  | mont rd rk rs1 =>
    obtain ⟨h0, rfl⟩ := mont_result h
    have hb := bitLength_le_W (hs rs1)
    simpa using And.intro (lt_two_pow_W_of_le_double (by omega))
      ((Nat.mod_lt _ (Nat.pos_of_ne_zero h0)).trans (hs rs1))
  | barrett rd rk rs1 =>
    obtain ⟨-, hf, rfl⟩ := barrett_result h
    have hb := bitLength_le_W (hs rs1)
    simpa using And.intro (lt_two_pow_W_of_le_double (by omega)) hf
  | modinv rd rs1 rs2 =>
    obtain ⟨-, v, hv, -, rfl⟩ := modinv_result h
    simpa using hv.trans (hs rs2)
  | moddec rd rs1 rs2 =>
    obtain ⟨-, rfl⟩ := moddec_result h
    simpa using (Nat.mod_le _ _).trans_lt (hs rs1)
  | phi rd rs1 rs2 =>
    obtain ⟨hf, rfl⟩ := phi_result h
    simpa using hf
  | fermat rd rk rs1 rs2 =>
    obtain ⟨hf, rfl⟩ := fermat_result h
    simpa using And.intro (((isqrt_le_self _).trans (Nat.div_le_self _ _)).trans_lt hf) hf
  | primegen rd rk rn rs1 =>
    obtain ⟨hL, k, hk, rfl⟩ := primegen_result h
    obtain ⟨hp, hq, hn⟩ := primeAttempts_fit hL hk
    simpa using And.intro hn (And.intro hq hp)

/-! ### each operation of the state keeps the invariant -/

theorem Cause.code_range (c : Cause) : 1 ≤ c.code.toNat ∧ c.code.toNat ≤ 6 := by
  cases c <;> decide

section

variable {s : State}

theorem engineInv_dropTurn (h : EngineInv s) : EngineInv s.dropTurn :=
  ⟨h.regs_fit, h.done_idle, h.faulted_code, h.no_fault_code, h.faulted_clear⟩

theorem engineInv_respond (h : EngineInv s) (a : BusResponse) : EngineInv (s.respond a) :=
  ⟨h.regs_fit, h.done_idle, h.faulted_code, h.no_fault_code, h.faulted_clear⟩

theorem engineInv_setMaxatt (h : EngineInv s) (v : Word) : EngineInv (s.setMaxatt v) :=
  ⟨h.regs_fit, h.done_idle, h.faulted_code, h.no_fault_code, h.faulted_clear⟩

theorem engineInv_launch (h : EngineInv s) (hi : s.execState = .idle) (w : Word) : EngineInv (s.launch w) where
  regs_fit := h.regs_fit
  done_idle hd := by simp at hd
  faulted_code hf := by simp at hf
  no_fault_code _ := h.no_fault_code (by simp [hi])
  faulted_clear hf := by simp at hf

theorem engineInv_setReg (h : EngineInv s) (hi : s.execState = .idle) (q : Reg) {v : Nat} (hv : v < 2 ^ Config.W) :
    EngineInv (s.setReg q v) where
  regs_fit q' := by
    rw [State.reg_setReg]
    split
    · exact hv
    · exact h.regs_fit q'
  done_idle := h.done_idle
  faulted_code := h.faulted_code
  no_fault_code := h.no_fault_code
  faulted_clear hf := by simp [hi] at hf

theorem engineInv_commit (h : EngineInv s) (hb : s.execState ≠ .faulted) {r : Result}
    (hr : ∀ w ∈ r.writes, w.2 < 2 ^ Config.W) : EngineInv (s.commit r) where
  regs_fit q := by
    rw [State.reg_commit]
    rcases State.reg_writeRegs_cases s q r.writes with hq | hq
    · rw [hq]; exact h.regs_fit q
    · exact hr _ hq
  done_idle _ := rfl
  faulted_code hf := by simp at hf
  no_fault_code _ := by rw [State.fcode_commit]; exact h.no_fault_code hb
  faulted_clear hf := by simp at hf

/-- A fault entry establishes the invariant, whatever the state before it (R176). -/
theorem engineInv_faultEntry (s : State) (c : Cause) : EngineInv (s.faultEntry c) where
  regs_fit q := by simp
  done_idle hd := by simp at hd
  faulted_code _ := c.code_range
  no_fault_code hf := absurd rfl hf
  faulted_clear _ := ⟨fun q => State.reg_faultEntry s q c, rfl, rfl⟩

/-- A reset establishes the invariant, whatever the state before it (R201). -/
theorem engineInv_resetEngine (s : State) : EngineInv s.resetEngine where
  regs_fit q := by simp
  done_idle _ := rfl
  faulted_code hf := by simp at hf
  no_fault_code _ := rfl
  faulted_clear hf := by simp at hf

end

/-- Settles O26: by the cases of a step, each an operation that keeps the invariant or establishes it. -/
theorem engineInvariantIsKept : Obligations.EngineInvariantIsKept := by
  unfold Obligations.EngineInvariantIsKept
  intro s t hs h
  have hd := engineInv_dropTurn hs
  rcases step_cases h with ⟨-, hb, i, r, -, hr, rfl⟩ | ⟨-, -, c, rfl⟩ | ⟨-, -, rfl⟩ | ⟨a, rfl⟩ | ⟨-, rfl | rfl⟩ |
    ⟨hi, w, -, rfl⟩ | ⟨-, w, -, rfl⟩ | ⟨hi, q, j, w, hj, -, rfl⟩
  · exact engineInv_commit hd (by simp [hb]) (commandResult_fits hd.regs_fit hr)
  · exact engineInv_faultEntry _ c
  · exact hd
  · exact engineInv_respond hd a
  · exact engineInv_resetEngine _
  · exact engineInv_respond (engineInv_resetEngine _) _
  · exact engineInv_respond (engineInv_launch hd hi w) _
  · exact engineInv_respond (engineInv_setMaxatt hd w) _
  · exact engineInv_respond (engineInv_setReg hd hi q (replaceWord_lt w Config.W_mod (hs.regs_fit q) hj)) _

end Sys2Proof.Machine
end

section
/-! What one step can change, component by component (`spec/10_state.md` R21, R23, R29 to R35): each statement is read
off the cases of a step. -/

namespace Sys2Proof.Machine

open Sys2Proof

variable {s t : State}

/-! ### the end of a command -/

theorem complete_eq_next (s : State) : ∃ t, s.complete = .next t := by
  cases hd : decode s.cmd with
  | ok i => rw [complete_of_decode hd]; exact exec_eq_next i s
  | error e => exact ⟨_, complete_of_illegal hd⟩

/-- On the engine's turn in BUSY a step is Complete (R31). -/
theorem step_of_busy (hb : s.execState = .busy) (he : engineNext s) : step s = s.dropTurn.complete := by
  rw [step_of_engineNext he, engineTurn_of_busy (by simpa using hb)]

/-! ### the changes of one component -/

/-- A completed command that changes ACC is a FERMAT. -/
theorem fermat_of_acc_commit_ne {i : Instr} {r : Result} (h : commandResult i s = .ok r)
    (hne : (s.commit r).acc ≠ s.acc) : ∃ rd rk rs1 rs2, i = .fermat rd rk rs1 rs2 :=
  commandResult_acc h fun hn => hne (by simp [hn])

/-- A completed command that changes ATT is a PRIMEGEN. -/
theorem primegen_of_att_commit_ne {i : Instr} {r : Result} (h : commandResult i s = .ok r)
    (hne : (s.commit r).att ≠ s.att) : ∃ rd rk rn rs1, i = .primegen rd rk rn rs1 :=
  commandResult_random h (.inl fun hn => hne (by simp [hn]))

/-- A completed command changes its destinations only. -/
theorem mem_destinations_of_reg_commit_ne {i : Instr} {r : Result} {q : Reg} (h : commandResult i s = .ok r)
    (hne : (s.commit r).reg q ≠ s.reg q) : q ∈ destinations i := by
  by_contra hq
  exact hne ((retires_commit s r).regs q (by rwa [commandResult_writes h]))

theorem cmd_changes (h : step s = .next t) (hne : t.cmd ≠ s.cmd) :
    (s.execState = .idle ∧ accessNext s (.write (Config.base + 0x010) t.cmd)) ∨ (resetsNext s ∧ t.cmd = 0) := by
  rcases step_cases h with ⟨-, -, i, r, -, -, rfl⟩ | ⟨-, -, c, rfl⟩ | ⟨-, -, rfl⟩ | ⟨a, rfl⟩ | ⟨hr, rfl | rfl⟩ |
    ⟨hi, w, ha, rfl⟩ | ⟨-, w, -, rfl⟩ | ⟨-, q, j, w, -, -, rfl⟩
  · simp at hne
  · simp at hne
  · simp at hne
  · simp at hne
  · exact .inr ⟨hr, rfl⟩
  · exact .inr ⟨hr, rfl⟩
  · exact .inl ⟨hi, ha⟩
  · simp at hne
  · simp at hne

theorem maxatt_changes (h : step s = .next t) (hne : t.maxatt ≠ s.maxatt) :
    (s.execState = .idle ∧ accessNext s (.write (Config.base + 0x014) t.maxatt)) ∨
      (resetsNext s ∧ t.maxatt = Config.maxattReset) := by
  rcases step_cases h with ⟨-, -, i, r, -, -, rfl⟩ | ⟨-, -, c, rfl⟩ | ⟨-, -, rfl⟩ | ⟨a, rfl⟩ | ⟨hr, rfl | rfl⟩ |
    ⟨-, w, -, rfl⟩ | ⟨hi, w, ha, rfl⟩ | ⟨-, q, j, w, -, -, rfl⟩
  · simp at hne
  · simp at hne
  · simp at hne
  · simp at hne
  · exact .inr ⟨hr, rfl⟩
  · exact .inr ⟨hr, rfl⟩
  · simp at hne
  · exact .inl ⟨hi, ha⟩
  · simp at hne

theorem att_changes (h : step s = .next t) (hne : t.att ≠ s.att) :
    (s.execState = .busy ∧ engineNext s ∧ t.execState = .idle ∧
        ∃ rd rk rn rs1, decode s.cmd = .ok (.primegen rd rk rn rs1)) ∨
      (s.execState = .busy ∧ engineNext s ∧ t.execState = .faulted ∧ t.att = 0) ∨ (resetsNext s ∧ t.att = 0) := by
  rcases step_cases h with ⟨he, hb, i, r, hd, hr, rfl⟩ | ⟨he, hb, c, rfl⟩ | ⟨-, -, rfl⟩ | ⟨a, rfl⟩ | ⟨hr, rfl | rfl⟩ |
    ⟨-, w, -, rfl⟩ | ⟨-, w, -, rfl⟩ | ⟨-, q, j, w, -, -, rfl⟩
  · obtain ⟨rd, rk, rn, rs1, rfl⟩ := primegen_of_att_commit_ne hr hne
    exact .inl ⟨hb, he, rfl, rd, rk, rn, rs1, hd⟩
  · exact .inr (.inl ⟨hb, he, rfl, rfl⟩)
  · simp at hne
  · simp at hne
  · exact .inr (.inr ⟨hr, rfl⟩)
  · exact .inr (.inr ⟨hr, rfl⟩)
  · simp at hne
  · simp at hne
  · simp at hne

/-! ### the statements -/

/-- Settles O3: the engine's turn is Complete in BUSY, and Complete runs the decoded command. -/
theorem stepRunsTheDecodedCommand : Obligations.StepRunsTheDecodedCommand := by
  unfold Obligations.StepRunsTheDecodedCommand
  intro s he
  constructor
  · intro hb i hd
    rw [step_of_busy hb he, complete_of_decode (by simpa using hd)]
  · intro hb
    rw [step_of_engineNext he, engineTurn_of_not_busy (by simpa using hb)]

/-- Settles O4: Complete always answers, and its two ends are the committed result and the fault entry. -/
theorem completeEndsIdleOrFaulted : Obligations.CompleteEndsIdleOrFaulted := by
  unfold Obligations.CompleteEndsIdleOrFaulted
  intro s hb he
  obtain ⟨t, ht⟩ := complete_eq_next s.dropTurn
  refine ⟨t, (step_of_busy hb he).trans ht, ?_⟩
  rcases complete_cases ht with ⟨i, r, -, -, rfl⟩ | ⟨c, rfl⟩
  · have hend := retires_commit s.dropTurn r
    exact .inl ⟨hend.idle, hend.done, hend.fcode, hend.fixed⟩
  · exact .inr ⟨c, faultEntered_faultEntry _ c⟩

/-- Settles O25: of the cases of a step only the end of a command, a reset and a launch change STATE. -/
theorem executionStateTransitions : Obligations.ExecutionStateTransitions := by
  unfold Obligations.ExecutionStateTransitions
  intro s t h hne
  rcases step_cases h with ⟨he, hb, i, r, -, -, rfl⟩ | ⟨he, hb, c, rfl⟩ | ⟨-, -, rfl⟩ | ⟨a, rfl⟩ | ⟨hr, rfl | rfl⟩ |
    ⟨hi, w, ha, rfl⟩ | ⟨-, w, -, rfl⟩ | ⟨-, q, j, w, -, -, rfl⟩
  · exact .inr (.inl ⟨hb, he, .inl rfl⟩)
  · exact .inr (.inl ⟨hb, he, .inr rfl⟩)
  · simp at hne
  · simp at hne
  · exact .inr (.inr ⟨hr, rfl⟩)
  · exact .inr (.inr ⟨hr, rfl⟩)
  · exact .inl ⟨hi, rfl, ha⟩
  · simp at hne
  · simp at hne

/-- Settles O29: by the cases of a step; of the results only a FERMAT's names ACC. -/
theorem accChangesOnlyByFermatFaultOrReset : Obligations.AccChangesOnlyByFermatFaultOrReset := by
  unfold Obligations.AccChangesOnlyByFermatFaultOrReset
  intro s t h hne
  rcases step_cases h with ⟨he, hb, i, r, hd, hr, rfl⟩ | ⟨he, hb, c, rfl⟩ | ⟨-, -, rfl⟩ | ⟨a, rfl⟩ | ⟨hr, rfl | rfl⟩ |
    ⟨-, w, -, rfl⟩ | ⟨-, w, -, rfl⟩ | ⟨-, q, j, w, -, -, rfl⟩
  · obtain ⟨rd, rk, rs1, rs2, rfl⟩ := fermat_of_acc_commit_ne hr hne
    exact .inl ⟨hb, he, rfl, rd, rk, rs1, rs2, hd⟩
  · exact .inr (.inl ⟨hb, he, rfl, rfl⟩)
  · simp at hne
  · simp at hne
  · exact .inr (.inr ⟨hr, rfl⟩)
  · exact .inr (.inr ⟨hr, rfl⟩)
  · simp at hne
  · simp at hne
  · simp at hne

/-- Settles O30, register by register. -/
theorem controlRegistersChangeOnlyAsStated : Obligations.ControlRegistersChangeOnlyAsStated := by
  unfold Obligations.ControlRegistersChangeOnlyAsStated
  exact fun s t h => ⟨cmd_changes h, maxatt_changes h, att_changes h⟩

/-- Settles O31: by the cases of a step; a result writes its command's destinations, and a host write one register. -/
theorem registersChangeOnlyAsStated : Obligations.RegistersChangeOnlyAsStated := by
  unfold Obligations.RegistersChangeOnlyAsStated
  intro s t q h hne
  rcases step_cases h with ⟨he, hb, i, r, hd, hr, rfl⟩ | ⟨he, hb, c, rfl⟩ | ⟨-, -, rfl⟩ | ⟨a, rfl⟩ | ⟨hr, rfl | rfl⟩ |
    ⟨-, w, -, rfl⟩ | ⟨-, w, -, rfl⟩ | ⟨hi, q', j, w, hj, ha, rfl⟩
  · exact .inl ⟨hb, he, rfl, i, hd, mem_destinations_of_reg_commit_ne hr hne⟩
  · exact .inr (.inl ⟨hb, he, rfl, by simp⟩)
  · simp at hne
  · simp at hne
  · exact .inr (.inr (.inr ⟨hr, by simp⟩))
  · exact .inr (.inr (.inr ⟨hr, by simp⟩))
  · simp at hne
  · simp at hne
  · obtain rfl : q = q' := by
      by_contra hq
      simp [State.reg_setReg, hq] at hne
    exact .inr (.inr (.inl ⟨hi, j, w, hj, ha⟩))

end Sys2Proof.Machine
end

section
/-! A command as a function of its sources (`spec/10_state.md` R29, R35, R37, `spec/40_primegen.md` R97): the pure
result depends on them alone, and writing it leaves nothing of the state before in what it names. -/

namespace Sys2Proof.Machine

open Sys2Proof

/-- The pure result of a command depends on its sources, and on MAXATT and `rng` when it is PRIMEGEN (R37, R97). -/
theorem commandResult_congr_sources {i : Instr} {s s' : State} (hx : ∀ q ∈ sources i, s.reg q = s'.reg q)
    (hg : usesRandom i = true → s.maxatt = s'.maxatt ∧ s.rng = s'.rng) :
    commandResult i s = commandResult i s' := by
  cases i with
  | li rd imm20 => rfl
  | primegen rd rk rn rs1 =>
    obtain ⟨hm, hr⟩ := hg rfl
    simp only [commandResult, hx rs1 (by simp [sources]), hm, hr]
  | bitlen rd rs1 => simp only [commandResult, hx rs1 (by simp [sources])]
  | mont rd rk rs1 => simp only [commandResult, hx rs1 (by simp [sources])]
  | barrett rd rk rs1 => simp only [commandResult, hx rs1 (by simp [sources])]
  | modinv rd rs1 rs2 =>
    simp only [commandResult, hx rs1 (by simp [sources]), hx rs2 (by simp [sources])]
  | moddec rd rs1 rs2 =>
    simp only [commandResult, hx rs1 (by simp [sources]), hx rs2 (by simp [sources])]
  | phi rd rs1 rs2 =>
    simp only [commandResult, hx rs1 (by simp [sources]), hx rs2 (by simp [sources])]
  | fermat rd rk rs1 rs2 =>
    simp only [commandResult, hx rs1 (by simp [sources]), hx rs2 (by simp [sources])]

/-- A register that a list of writes names ends with a value of the list, whatever the state was. -/
theorem reg_writeRegs_eq_of_mem {q : Reg} {l : List (Reg × Nat)} (hq : q ∈ l.map Prod.fst) (s s' : State) :
    (s.writeRegs l).reg q = (s'.writeRegs l).reg q := by
  induction l generalizing s s' with
  | nil => simp at hq
  | cons p rest ih =>
    rw [State.writeRegs, State.writeRegs]
    by_cases hrest : q ∈ rest.map Prod.fst
    · exact ih hrest _ _
    · obtain rfl : q = p.1 := by simpa [hrest] using hq
      have hn : ∀ w ∈ rest, w.1 ≠ p.1 := fun w hw e => hrest (e ▸ List.mem_map_of_mem hw)
      rw [State.reg_writeRegs_of_not_mem _ _ _ hn, State.reg_writeRegs_of_not_mem _ _ _ hn, State.reg_setReg_same,
        State.reg_setReg_same]

/-! ### which results name ACC, ATT and `rng` -/

theorem writesAcc_iff (i : Instr) : writesAcc i = true ↔ ∃ rd rk rs1 rs2, i = .fermat rd rk rs1 rs2 := by
  cases i <;> simp [writesAcc]

theorem usesRandom_iff (i : Instr) : usesRandom i = true ↔ ∃ rd rk rn rs1, i = .primegen rd rk rn rs1 := by
  cases i <;> simp [usesRandom]

section

variable {i : Instr} {s : State} {r : Result} (h : commandResult i s = .ok r)

include h

theorem acc_of_writesAcc (hw : writesAcc i = true) : ∃ b, r.acc = some b := by
  obtain ⟨rd, rk, rs1, rs2, rfl⟩ := (writesAcc_iff i).1 hw
  obtain ⟨-, rfl⟩ := fermat_result h
  exact ⟨_, rfl⟩

theorem acc_of_not_writesAcc (hw : writesAcc i = false) : r.acc = none := by
  by_contra ha
  rw [(writesAcc_iff i).2 (commandResult_acc h ha)] at hw
  cases hw

theorem random_of_usesRandom (hw : usesRandom i = true) : ∃ a g, r.att = some a ∧ r.rng = some g := by
  obtain ⟨rd, rk, rn, rs1, rfl⟩ := (usesRandom_iff i).1 hw
  obtain ⟨-, k, -, rfl⟩ := primegen_result h
  exact ⟨_, _, rfl, rfl⟩

theorem random_of_not_usesRandom (hw : usesRandom i = false) : r.att = none ∧ r.rng = none := by
  by_contra ha
  rw [(usesRandom_iff i).2 (commandResult_random h (not_and_or.1 ha))] at hw
  cases hw

end

/-- Settles O32: both runs end in the same pure result or the same fault; what the result names it overwrites in
either state, and what it does not name it leaves. -/
theorem commandsDependOnlyOnTheirSources : Obligations.CommandsDependOnlyOnTheirSources := by
  unfold Obligations.CommandsDependOnlyOnTheirSources
  intro i s s' t t' hx hg ht ht'
  have hres := commandResult_congr_sources hx hg
  rcases exec_cases ht with ⟨r, hr, rfl⟩ | ⟨c, hc, rfl⟩
  · obtain rfl : t' = s'.commit r := by
      simpa using ht'.symm.trans (exec_of_result (hres ▸ hr))
    refine ⟨rfl, rfl, fun hf => by simp at hf, fun _ => ⟨?_, ?_, ?_, ?_, ?_⟩⟩
    · intro q hq
      rw [← commandResult_writes hr] at hq
      exact reg_writeRegs_eq_of_mem hq s s'
    · intro hw
      obtain ⟨b, hb⟩ := acc_of_writesAcc hr hw
      simp [hb]
    · intro hw
      simp [acc_of_not_writesAcc hr hw]
    · intro hw
      obtain ⟨a, g, hatt, hrng⟩ := random_of_usesRandom hr hw
      simp [hatt, hrng]
    · intro hw
      simp [random_of_not_usesRandom hr hw]
  · obtain rfl : t' = s'.faultEntry c := by
      rw [exec_eq_retire, ← hres, hc] at ht'
      simpa [State.retire] using ht'.symm
    exact ⟨rfl, rfl, fun _ => ⟨rfl, fun q => by simp, rfl, rfl⟩, fun hi => by simp at hi⟩

end Sys2Proof.Machine
end

section
/-! The control registers through the window (`spec/10_state.md` R26 to R34, R58, R59): what the host reads at each
offset, and what an admitted or refused write does. -/

namespace Sys2Proof.Machine

open Sys2Proof

/-! ### the admission table, row by row (R58) -/

@[simp] theorem admitsRead_id (e : ExecState) : admitsRead e .id = true := by cases e <;> rfl
@[simp] theorem admitsRead_param (e : ExecState) : admitsRead e .param = true := by cases e <;> rfl
@[simp] theorem admitsRead_ctrl (e : ExecState) : admitsRead e .ctrl = true := by cases e <;> rfl

@[simp] theorem admitsWrite_ctrl (e : ExecState) (v : Word) : admitsWrite e .ctrl v = (v == 0 || v == 1) := by
  cases e <;> rfl

/-! ### one access at a target -/

section

variable {off : Nat} {t : Target} {s : State} {v : Word}

theorem busAccess_read_of_target (ht : targetAt Config.W off = some t) (ha : off % 4 = 0)
    (hadm : admitsRead s.execState t = true) (hv : s.readTarget Config.W t = some v) :
    s.busAccess (.read (Config.base + off)) = s.respond (.data v) := by
  rw [busAccess_read_at, busRead_of_target ht ha hadm hv]

theorem busAccess_write_of_target (ht : targetAt Config.W off = some t) (ha : off % 4 = 0)
    (hadm : admitsWrite s.execState t v = true) :
    s.busAccess (.write (Config.base + off) v) = (s.writeTarget v t).respond .ok := by
  rw [busAccess_write_at, busWrite_of_target ht ha hadm]

/-- A write the table refuses is answered BusError and has no effect (R57, R58). -/
theorem busAccess_write_of_refused (ht : targetAt Config.W off = some t) (hadm : admitsWrite s.execState t v = false) :
    s.busAccess (.write (Config.base + off) v) = s.respond .busError := by
  rw [busAccess_write_at, State.busWrite, ht]
  simp [hadm]

end

/-- An admitted CMD write (R33, R59). -/
theorem busAccess_write_cmd {s : State} (hi : s.execState = .idle) (w : Word) :
    s.busAccess (.write (Config.base + 0x010) w) = (s.launch w).respond .ok :=
  busAccess_write_of_target (t := .cmd) rfl rfl (by simp [hi, admitsWrite])

/-- An admitted MAXATT write (R34, R59). -/
theorem busAccess_write_maxatt {s : State} (hi : s.execState = .idle) (v : Word) :
    s.busAccess (.write (Config.base + 0x014) v) = (s.setMaxatt v).respond .ok :=
  busAccess_write_of_target (t := .maxatt) rfl rfl (by simp [hi, admitsWrite])

/-- MAXATT is readable in IDLE (R34, R58). -/
theorem busAccess_read_maxatt {s : State} (hi : s.execState = .idle) :
    s.busAccess (.read (Config.base + 0x014)) = s.respond (.data s.maxatt) :=
  busAccess_read_of_target (t := .maxatt) rfl rfl (by simp [hi, admitsRead]) rfl

/-- STATUS is readable in every state (R28, R58). -/
theorem busAccess_read_status (s : State) :
    s.busAccess (.read (Config.base + 0x008)) = s.respond (.data s.statusWord) :=
  pollStatus_eq s

/-! ### the words ID, PARAM and STATUS -/

/-- PARAM as a number: no carry and no loss, since `W ≤ 65504` (R6, R27). -/
theorem toNat_paramWord : (paramWord Config.W).toNat = Config.W + 0x100000 := by
  have := Config.W_max
  rw [paramWord, BitVec.toNat_ofNat, Nat.mod_eq_of_lt (by omega)]

section

variable (s : State)

/-- The bits of STATUS (R28); FCODE has four, so from bit 12 on there are none. -/
theorem statusWord_getLsbD (k : Nat) :
    s.statusWord.getLsbD k = match k with
      | 0 => s.execState == .busy
      | 1 => s.done
      | 2 => s.execState == .faulted
      | 3 => s.acc
      | k + 4 => decide (4 ≤ k) && s.fcode.getLsbD (k - 4) := by
  have h : s.statusWord.getLsbD k = BitVec.getLsbD (w := 20 + 4 + 4 + 1 + 1 + 1 + 1) s.statusWord k := rfl
  rw [h, State.statusWord]
  simp only [BitVec.getLsbD_append]
  rcases k with _ | _ | _ | _ | k
  · simp
  · simp
  · simp
  · simp
  · cases hf : s.fcode.getLsbD (k - 4) with
    | false => simp [hf]
    | true => simp [BitVec.lt_of_getLsbD hf, ← decide_not]

theorem statusWord_low_zero : s.statusWord.extractLsb' 4 4 = 0 := by
  ext k hk
  rw [BitVec.getElem_extractLsb', Nat.add_comm, statusWord_getLsbD]
  simp [Nat.not_le.2 hk]

theorem statusWord_fcode : s.statusWord.extractLsb' 8 4 = s.fcode := by
  ext k hk
  rw [BitVec.getElem_extractLsb', show 8 + k = k + 4 + 4 by omega, statusWord_getLsbD]
  simp [BitVec.getLsbD_eq_getElem hk]

theorem statusWord_high_zero : s.statusWord.extractLsb' 12 20 = 0 := by
  ext k hk
  rw [BitVec.getElem_extractLsb', show 12 + k = k + 8 + 4 by omega, statusWord_getLsbD]
  simp

end

/-! ### the statements -/

/-- Settles O40: the fields are those of the STATUS word, and the invariant says which of them exclude each other. -/
theorem statusShowsTheState : Obligations.StatusShowsTheState := by
  unfold Obligations.StatusShowsTheState
  intro s hs
  refine ⟨s.statusWord, by rw [busAccess_read_status, State.response_respond], ?_⟩
  have hdone (hne : s.execState ≠ .idle) : s.done = false := by
    cases hd : s.done with
    | false => rfl
    | true => exact absurd (hs.done_idle hd) hne
  rw [statusWord_fcode, statusWord_getLsbD, statusWord_getLsbD, statusWord_getLsbD, statusWord_getLsbD]
  refine ⟨beq_iff_eq, rfl, beq_iff_eq, rfl, statusWord_low_zero s, rfl, statusWord_high_zero s, hs.no_fault_code,
    ?_, ?_⟩
  · rintro ⟨hb, hf⟩
    cases (beq_iff_eq.1 hb).symm.trans (beq_iff_eq.1 hf)
  · rintro (hb | hf)
    · exact hdone (by simp [beq_iff_eq.1 hb])
    · exact hdone (by simp [beq_iff_eq.1 hf])

/-- Settles O39: both are admitted in every state; the fields of PARAM do not overlap. -/
theorem idAndParamReadAsConstants : Obligations.IdAndParamReadAsConstants := by
  unfold Obligations.IdAndParamReadAsConstants
  intro s
  have hid := busAccess_read_of_target (s := s) (off := 0x000) (t := .id) rfl rfl (by simp) rfl
  have hparam := busAccess_read_of_target (s := s) (off := 0x004) (t := .param) rfl rfl (by simp) rfl
  have hW := Config.W_max
  refine ⟨by rw [hid]; rfl, paramWord Config.W, by rw [hparam]; rfl, ?_⟩
  rw [toNat_paramWord]
  omega

/-- Settles O48: the write is admitted and is the launch. -/
theorem cmdWriteLaunchesTheCommand : Obligations.CmdWriteLaunchesTheCommand := by
  unfold Obligations.CmdWriteLaunchesTheCommand
  intro s w hi
  exact ⟨_, busAccess_write_cmd hi w, rfl, rfl, rfl, rfl, fun _ => rfl, ⟨rfl, rfl, rfl⟩, rfl, rfl⟩

/-- Settles O49: CTRL admits the values 0 and 1 whatever the execution state is. -/
theorem ctrlWrites : Obligations.CtrlWrites := by
  unfold Obligations.CtrlWrites
  intro s
  refine ⟨?_, ?_, ?_, ?_⟩
  · exact busAccess_write_of_target (t := .ctrl) rfl rfl (by simp)
  · exact busAccess_write_of_target (t := .ctrl) rfl rfl (by simp)
  · intro v h0 h1
    exact busAccess_write_of_refused (t := .ctrl) rfl (by simpa using And.intro h0 h1)
  · exact busAccess_read_of_target (t := .ctrl) rfl rfl (by simp) rfl

/-- Settles O50: the write is admitted and sets MAXATT alone; in IDLE still, MAXATT is read back. -/
theorem maxattIsWritableInIdle : Obligations.MaxattIsWritableInIdle := by
  unfold Obligations.MaxattIsWritableInIdle
  intro s v hi
  refine ⟨_, busAccess_write_maxatt hi v, rfl, rfl, ?_, ⟨rfl, rfl, rfl, rfl, rfl, rfl, rfl, rfl, rfl, rfl⟩, rfl⟩
  rw [busAccess_read_maxatt (by simpa using hi)]
  rfl

end Sys2Proof.Machine
end

section
/-! What an access leaves unchanged (`spec/20_memory.md` R51, R52, R57, R59, R62): whatever only answers the host keeps
the whole engine, and reads, refused accesses, accesses outside the window and accesses in BUSY do nothing else. -/

namespace Sys2Proof.Machine

open Sys2Proof

/-! ### the same engine in two states -/

theorem sameEngine_refl (s : State) : SameEngine s s := ⟨rfl, rfl, rfl, rfl, rfl, rfl, rfl, rfl, rfl, rfl⟩

theorem sameEngine_trans {s t u : State} (h : SameEngine s t) (h' : SameEngine t u) : SameEngine s u where
  x := h'.x.trans h.x
  execState := h'.execState.trans h.execState
  done := h'.done.trans h.done
  acc := h'.acc.trans h.acc
  fcode := h'.fcode.trans h.fcode
  cmd := h'.cmd.trans h.cmd
  maxatt := h'.maxatt.trans h.maxatt
  att := h'.att.trans h.att
  rng := h'.rng.trans h.rng
  seedsDrawn := h'.seedsDrawn.trans h.seedsDrawn

theorem sameEngine_respond (s : State) (r : BusResponse) : SameEngine s (s.respond r) :=
  ⟨rfl, rfl, rfl, rfl, rfl, rfl, rfl, rfl, rfl, rfl⟩

theorem sameEngine_dropTurn (s : State) : SameEngine s s.dropTurn :=
  ⟨rfl, rfl, rfl, rfl, rfl, rfl, rfl, rfl, rfl, rfl⟩

theorem sameEngine_launch {s t : State} (h : SameEngine s t) (w : Word) : SameEngine (s.launch w) (t.launch w) where
  x := h.x
  execState := rfl
  done := rfl
  acc := h.acc
  fcode := h.fcode
  cmd := rfl
  maxatt := h.maxatt
  att := h.att
  rng := h.rng
  seedsDrawn := h.seedsDrawn

/-! ### the accesses that only answer the host -/

/-- What a read is answered depends on the engine, not on the answer before it. -/
@[simp] theorem busRead_respond (W off : Nat) (s : State) (r : BusResponse) :
    (s.respond r).busRead W off = s.busRead W off := rfl

/-- A read, wherever it goes, only answers the host (R52). -/
theorem busAccess_read (s : State) (addr : Nat) :
    s.busAccess (.read addr) =
      s.respond (if addr < Config.base then .outsideWindow else s.busRead Config.W (addr - Config.base)) := by
  rw [State.busAccess, State.accessAt]
  split <;> rfl

/-- In BUSY no access but a reset has an effect (R58, R62). -/
theorem busAccess_of_busy {s : State} {a : BusAccess} (hb : s.execState = .busy) (ha : ¬ isResetWrite a) :
    ∃ r, s.busAccess a = s.respond r := by
  have hni : s.execState ≠ .idle := by simp [hb]
  rcases busAccess_cases a s with h | ⟨hr, -⟩ | ⟨hi, -⟩ | ⟨hi, -⟩ | ⟨hi, -⟩
  · exact h
  · exact absurd hr ha
  · exact absurd hi hni
  · exact absurd hi hni
  · exact absurd hi hni

/-- An access answered BusError had no effect (R57): every effect is answered OK. -/
theorem busAccess_of_busError {s : State} {a : BusAccess} (h : (s.busAccess a).response = some .busError) :
    s.busAccess a = s.respond .busError := by
  rcases busAccess_cases a s with ⟨r, e⟩ | ⟨-, e⟩ | ⟨-, v, -, e⟩ | ⟨-, v, -, e⟩ | ⟨-, i, j, v, -, -, e⟩
  · rw [e, State.response_respond, Option.some.injEq] at h
    rw [e, h]
  · simp [e] at h
  · simp [e] at h
  · simp [e] at h
  · simp [e] at h

/-! ### the two sides of the window's edges -/

theorem targetAt_W_eq_none_iff (off : Nat) : targetAt Config.W off = none ↔ 0x1000 + 2 * Config.W ≤ off := by
  have hmod := Config.W_mod
  have hmin := Config.W_min
  exact targetAt_eq_none_iff (by omega) (by omega) off

theorem exists_targetAt {off : Nat} (h : off < 0x1000 + 2 * Config.W) : ∃ t, targetAt Config.W off = some t :=
  Option.ne_none_iff_exists'.1 (mt (targetAt_W_eq_none_iff off).1 (not_le.2 h))

/-- The address of an access's first byte. -/
def firstByte : BusAccess → Nat
  | .read addr => addr
  | .write addr _ => addr
  | .odd _ addr => addr

theorem busAccess_below_window {s : State} {a : BusAccess} (h : firstByte a < Config.base) :
    s.busAccess a = s.respond .outsideWindow := by
  cases a with
  | read addr => exact if_pos h
  | write addr v => exact if_pos h
  | odd width addr => exact if_pos h

theorem busAccess_above_window {s : State} {a : BusAccess}
    (h : Config.base + (0x1000 + 2 * Config.W) ≤ firstByte a) : s.busAccess a = s.respond .outsideWindow := by
  obtain ⟨off, hoff⟩ := Nat.exists_eq_add_of_le ((Nat.le_add_right ..).trans h)
  have hnone := (targetAt_W_eq_none_iff off).2 (by omega)
  cases a with
  | read addr =>
    obtain rfl : addr = Config.base + off := hoff
    rw [busAccess_read_at, State.busRead, hnone]
  | write addr v =>
    obtain rfl : addr = Config.base + off := hoff
    rw [busAccess_write_at, State.busWrite, hnone]
  | odd width addr =>
    obtain rfl : addr = Config.base + off := hoff
    rw [busAccess_odd_at, busOdd, hnone]

/-! ### the statements -/

/-- Settles O43: a refused access only answers the host. -/
theorem refusedAccessChangesNothing : Obligations.RefusedAccessChangesNothing := by
  unfold Obligations.RefusedAccessChangesNothing
  intro s a h
  rw [busAccess_of_busError h]
  exact ⟨sameEngine_respond s _, rfl⟩

/-- Settles O45: a read only answers the host, and the answer depends on nothing the first read changed. -/
theorem readsHaveNoSideEffects : Obligations.ReadsHaveNoSideEffects := by
  unfold Obligations.ReadsHaveNoSideEffects
  intro s addr
  simp only [busAccess_read, busRead_respond, State.response_respond, State.turns_respond, and_self, and_true]
  exact sameEngine_respond s _

/-- Settles O51: each access leaves the engine as it was, in BUSY still, where the next one meets it. -/
theorem commandAndOperandsAreFixedWhileBusy : Obligations.CommandAndOperandsAreFixedWhileBusy := by
  unfold Obligations.CommandAndOperandsAreFixedWhileBusy
  intro s accesses hb hnr
  induction accesses generalizing s with
  | nil => exact sameEngine_refl s
  | cons a rest ih =>
    rw [List.forall_mem_cons] at hnr
    obtain ⟨ha, hrest⟩ := hnr
    obtain ⟨r, e⟩ := busAccess_of_busy hb ha
    rw [List.foldl_cons, e]
    exact sameEngine_trans (sameEngine_respond s r) (ih _ hb hrest)

/-- Settles O44: below BASE and from the end of the window on, no target is addressed, whatever the access. -/
theorem outsideTheWindowTheEngineIsSilent : Obligations.OutsideTheWindowTheEngineIsSilent := by
  unfold Obligations.OutsideTheWindowTheEngineIsSilent
  intro s a addr hform hout
  obtain rfl : firstByte a = addr := by
    rcases hform with rfl | ⟨v, rfl⟩ | ⟨width, rfl⟩ <;> rfl
  have e : s.busAccess a = s.respond .outsideWindow := hout.elim busAccess_below_window busAccess_above_window
  rw [e]
  exact ⟨rfl, sameEngine_respond s _⟩

end Sys2Proof.Machine
end

section
/-! Which accesses of the window are admitted (`spec/20_memory.md` R51, R56, R58): the address map read backwards, the
admission table by offset, and the two answers an access can get. -/

namespace Sys2Proof.Machine

open Sys2Proof

/-! ### the address map -/

theorem targetAt_of_le {W off : Nat} {t : Target} (ht : targetAt W off = some t) (h : 0x1000 ≤ off) :
    ∃ i j, t = .regWord i j := by
  unfold targetAt at ht
  rw [if_neg (not_lt.2 h)] at ht
  split at ht
  · cases ht; exact ⟨_, _, rfl⟩
  · cases ht

/-- The map of R51 from the targets' side: where each of them stands. -/
theorem targetAt_cases {W off : Nat} {t : Target} (ht : targetAt W off = some t) :
    ((∃ i j, t = .regWord i j) ∧ 0x1000 ≤ off) ∨
      (t = .reserved ∧ off < 0x1000 ∧ off ∉ [0x000, 0x004, 0x008, 0x00C, 0x010, 0x014, 0x018]) ∨
      (t = .id ∧ off = 0x000) ∨ (t = .param ∧ off = 0x004) ∨ (t = .status ∧ off = 0x008) ∨
      (t = .ctrl ∧ off = 0x00C) ∨ (t = .cmd ∧ off = 0x010) ∨ (t = .maxatt ∧ off = 0x014) ∨
      (t = .att ∧ off = 0x018) := by
  by_cases h : 0x1000 ≤ off
  · exact .inl ⟨targetAt_of_le ht h, h⟩
  · unfold targetAt at ht
    rw [if_pos (not_le.1 h)] at ht
    split at ht <;> cases ht <;> simp_all

/-! ### the admission table, the rows not yet said (R58) -/

@[simp] theorem admitsRead_status (e : ExecState) : admitsRead e .status = true := by cases e <;> rfl
@[simp] theorem admitsRead_reserved (e : ExecState) : admitsRead e .reserved = false := by cases e <;> rfl
@[simp] theorem admitsRead_cmd (e : ExecState) : admitsRead e .cmd = (e != .busy) := by cases e <;> rfl
@[simp] theorem admitsRead_maxatt (e : ExecState) : admitsRead e .maxatt = (e != .busy) := by cases e <;> rfl
@[simp] theorem admitsRead_att (e : ExecState) : admitsRead e .att = (e != .busy) := by cases e <;> rfl

@[simp] theorem admitsRead_regWord (e : ExecState) (i : Reg) (j : Nat) :
    admitsRead e (.regWord i j) = (e != .busy) := by
  cases e <;> rfl

section

variable (e : ExecState) (v : Word)

@[simp] theorem admitsWrite_id : admitsWrite e .id v = false := by cases e <;> rfl
@[simp] theorem admitsWrite_param : admitsWrite e .param v = false := by cases e <;> rfl
@[simp] theorem admitsWrite_status : admitsWrite e .status v = false := by cases e <;> rfl
@[simp] theorem admitsWrite_att : admitsWrite e .att v = false := by cases e <;> rfl
@[simp] theorem admitsWrite_reserved : admitsWrite e .reserved v = false := by cases e <;> rfl
@[simp] theorem admitsWrite_cmd : admitsWrite e .cmd v = (e == .idle) := by cases e <;> rfl
@[simp] theorem admitsWrite_maxatt : admitsWrite e .maxatt v = (e == .idle) := by cases e <;> rfl

@[simp] theorem admitsWrite_regWord (i : Reg) (j : Nat) : admitsWrite e (.regWord i j) v = (e == .idle) := by
  cases e <;> rfl

end

/-- The columns "read" of R58 by offset. -/
theorem admitsRead_iff {W off : Nat} {t : Target} (e : ExecState) (ht : targetAt W off = some t) :
    admitsRead e t = true ↔
      off ∈ [0x000, 0x004, 0x008, 0x00C] ∨ (e ≠ .busy ∧ (off ∈ [0x010, 0x014, 0x018] ∨ 0x1000 ≤ off)) := by
  rcases targetAt_cases ht with ⟨⟨i, j, rfl⟩, hle⟩ | ⟨rfl, hlt, hnot⟩ | ⟨rfl, rfl⟩ | ⟨rfl, rfl⟩ | ⟨rfl, rfl⟩ |
    ⟨rfl, rfl⟩ | ⟨rfl, rfl⟩ | ⟨rfl, rfl⟩ | ⟨rfl, rfl⟩
  · have hne (c : Nat) (hc : c < 0x1000) : off ≠ c := by omega
    simp [hle, hne]
  · simp_all
  all_goals simp

/-- The columns "write" of R58 by offset. -/
theorem admitsWrite_iff {W off : Nat} {t : Target} (e : ExecState) (v : Word) (ht : targetAt W off = some t) :
    admitsWrite e t v = true ↔
      (off = 0x00C ∧ (v = 0 ∨ v = 1)) ∨ (e = .idle ∧ (off ∈ [0x010, 0x014] ∨ 0x1000 ≤ off)) := by
  rcases targetAt_cases ht with ⟨⟨i, j, rfl⟩, hle⟩ | ⟨rfl, hlt, hnot⟩ | ⟨rfl, rfl⟩ | ⟨rfl, rfl⟩ | ⟨rfl, rfl⟩ |
    ⟨rfl, rfl⟩ | ⟨rfl, rfl⟩ | ⟨rfl, rfl⟩ | ⟨rfl, rfl⟩
  · have hne (c : Nat) (hc : c < 0x1000) : off ≠ c := by omega
    simp [hle, hne]
  · simp_all
  all_goals simp

/-! ### the two answers inside the window -/

section

variable {off : Nat} {t : Target} {s : State} {v : Word}

/-- What the table admits has a value to read. -/
theorem exists_readTarget (W : Nat) (h : admitsRead s.execState t = true) : ∃ v, s.readTarget W t = some v := by
  cases t with
  | reserved => simp at h
  | _ => exact ⟨_, rfl⟩

/-- A misaligned read, or one the table refuses, is answered BusError (R56, R58). -/
theorem busAccess_read_of_refused (ht : targetAt Config.W off = some t)
    (h : ¬ (off % 4 = 0 ∧ admitsRead s.execState t = true)) :
    s.busAccess (.read (Config.base + off)) = s.respond .busError := by
  rw [busAccess_read_at, State.busRead, ht]
  simp only [h, if_false]

/-- A misaligned write is answered BusError (R56). -/
theorem busAccess_write_of_misaligned (ht : targetAt Config.W off = some t) (h : off % 4 ≠ 0) :
    s.busAccess (.write (Config.base + off) v) = s.respond .busError := by
  rw [busAccess_write_at, State.busWrite, ht]
  simp only [h, false_and, if_false]

theorem busAccess_odd_of_target (width : OddWidth) (ht : targetAt Config.W off = some t) :
    s.busAccess (.odd width (Config.base + off)) = s.respond .busError := by
  rw [busAccess_odd_at, busOdd, ht]

/-- An aligned read is admitted and gets data, or is refused, as the table says. -/
theorem busAccess_read_cases (ht : targetAt Config.W off = some t) (ha : off % 4 = 0) :
    (admitsRead s.execState t = true ∧ ∃ v, s.busAccess (.read (Config.base + off)) = s.respond (.data v)) ∨
      (admitsRead s.execState t ≠ true ∧ s.busAccess (.read (Config.base + off)) = s.respond .busError) := by
  by_cases h : admitsRead s.execState t = true
  · obtain ⟨v, hv⟩ := exists_readTarget Config.W h
    exact .inl ⟨h, v, busAccess_read_of_target ht ha h hv⟩
  · exact .inr ⟨h, busAccess_read_of_refused ht fun hc => h hc.2⟩

/-- An aligned write is admitted and answered OK, or is refused, as the table says. -/
theorem response_write_cases (ht : targetAt Config.W off = some t) (ha : off % 4 = 0) (v : Word) :
    (admitsWrite s.execState t v = true ∧ (s.busAccess (.write (Config.base + off) v)).response = some .ok) ∨
      (admitsWrite s.execState t v ≠ true ∧
        (s.busAccess (.write (Config.base + off) v)).response = some .busError) := by
  by_cases h : admitsWrite s.execState t v = true
  · exact .inl ⟨h, by rw [busAccess_write_of_target ht ha h]; rfl⟩
  · exact .inr ⟨h, by rw [busAccess_write_of_refused ht (by simpa using h)]; rfl⟩

end

/-! ### what a read finds in a faulted engine -/

/-- In FAULTED the registers and ATT hold 0, so that is what they read as (R58, R176). -/
theorem readTarget_of_faulted {s : State} (W : Nat) (hs : EngineInv s) (hf : s.execState = .faulted) :
    s.readTarget W .att = some 0 ∧ ∀ i j, s.readTarget W (.regWord i j) = some 0 := by
  obtain ⟨hreg, hatt, -⟩ := hs.faulted_clear hf
  exact ⟨congrArg some hatt, fun i j => by simp [State.readTarget, hreg i, wordField]⟩

/-! ### the statements -/

/-- Settles O41: every offset of the window has a target, and the table by target is the table by offset. -/
theorem admissionTable : Obligations.AdmissionTable := by
  unfold Obligations.AdmissionTable
  intro s off hoff ha
  obtain ⟨t, ht⟩ := exists_targetAt hoff
  refine ⟨?_, ?_, fun v => ?_, fun v => ?_, ?_, ?_, ?_⟩
  · rw [← admitsRead_iff s.execState ht]
    rcases busAccess_read_cases (s := s) ht ha with ⟨h, v, e⟩ | ⟨h, e⟩ <;> simp [h, e]
  · rcases busAccess_read_cases (s := s) ht ha with ⟨-, v, e⟩ | ⟨-, e⟩ <;> simp [e]
  · rw [← admitsWrite_iff s.execState v ht]
    rcases response_write_cases (s := s) ht ha v with ⟨h, e⟩ | ⟨h, e⟩ <;> simp [h, e]
  · rcases response_write_cases (s := s) ht ha v with ⟨-, e⟩ | ⟨-, e⟩ <;> simp [e]
  · rintro rfl
    rw [busAccess_read_of_target (t := .ctrl) rfl rfl (by simp) rfl, State.response_respond]
  · intro hs hf hcleared
    obtain ⟨hatt, hword⟩ := readTarget_of_faulted Config.W hs hf
    have hzero : admitsRead s.execState t = true ∧ s.readTarget Config.W t = some 0 := by
      rcases hcleared with rfl | hle
      · obtain rfl : Target.att = t := Option.some.inj ht
        exact ⟨by simp [hf], hatt⟩
      · obtain ⟨i, j, rfl⟩ := targetAt_of_le ht hle
        exact ⟨by simp [hf], hword i j⟩
    obtain ⟨hadm, hv⟩ := hzero
    rw [busAccess_read_of_target ht ha hadm hv, State.response_respond]
  · intro hb
    rw [busAccess_read_of_target (t := .cmd) rfl rfl (by simpa using hb) rfl, State.response_respond]

/-- Settles O42: the access addresses a target, and neither a wrong width nor a misaligned word is admitted at any. -/
theorem onlyAlignedWordsAreAdmitted : Obligations.OnlyAlignedWordsAreAdmitted := by
  unfold Obligations.OnlyAlignedWordsAreAdmitted
  intro s off v width hoff
  obtain ⟨t, ht⟩ := exists_targetAt hoff
  refine ⟨by rw [busAccess_odd_of_target width ht]; rfl, fun hmis => ⟨?_, ?_⟩⟩
  · rw [busAccess_read_of_refused ht fun hc => hmis hc.1]; rfl
  · rw [busAccess_write_of_misaligned ht hmis]; rfl

end Sys2Proof.Machine
end

section
/-! The words and bytes of a general register through the window (`spec/20_memory.md` R54, R55). -/

namespace Sys2Proof.Machine

open Sys2Proof

/-! ### the words -/

@[simp] theorem toNat_ofNat_wordField (a j : Nat) : (BitVec.ofNat 32 (wordField a j)).toNat = wordField a j := by
  rw [BitVec.toNat_ofNat, Nat.mod_eq_of_lt (wordField_lt a j)]

section

variable {s : State} {i : Reg} {j : Nat}

/-- Reading word `j` of `x[i]`, in IDLE and FAULTED (R54, R58). -/
theorem busRead_regWord (hb : s.execState ≠ .busy) (hj : j < Config.W / 32) :
    s.busRead Config.W (0x1000 + i.val * (Config.W / 8) + 4 * j) =
      .data (BitVec.ofNat 32 (wordField (s.reg i) j)) :=
  busRead_of_target (targetAt_regWord Config.W_mod i hj) (regWord_offset_aligned Config.W_mod i j)
    (by simpa using hb) rfl

/-- Writing word `j` of `x[i]`, in IDLE (R54, R58). -/
theorem busAccess_write_regWord (hi : s.execState = .idle) (hj : j < Config.W / 32) (v : Word) :
    s.busAccess (.write (Config.base + (0x1000 + i.val * (Config.W / 8) + 4 * j)) v) =
      (s.setReg i (replaceWord (s.reg i) j v)).respond .ok :=
  busAccess_write_of_target (targetAt_regWord Config.W_mod i hj) (regWord_offset_aligned Config.W_mod i j)
    (by simp [hi])

end

/-! ### the bytes -/

/-- Byte `k` of word `j` of a number is its byte `4 * j + k`. -/
theorem wordField_byte (a j : Nat) {k : Nat} (hk : k < 4) :
    wordField a j / 2 ^ (8 * k) % 2 ^ 8 = a / 2 ^ (8 * (4 * j + k)) % 2 ^ 8 :=
  calc wordField a j / 2 ^ (8 * k) % 2 ^ 8
      = a / 2 ^ (32 * j) % (2 ^ (8 * k) * 2 ^ (32 - 8 * k)) / 2 ^ (8 * k) % 2 ^ 8 := by
        rw [wordField_eq, ← pow_add, show 8 * k + (32 - 8 * k) = 32 by omega]
    _ = a / 2 ^ (32 * j) / 2 ^ (8 * k) % 2 ^ (32 - 8 * k) % 2 ^ 8 := by rw [Nat.mod_mul_right_div_self]
    _ = a / 2 ^ (32 * j) / 2 ^ (8 * k) % 2 ^ 8 := Nat.mod_mod_of_dvd _ (pow_dvd_pow 2 (by omega))
    _ = a / 2 ^ (8 * (4 * j + k)) % 2 ^ 8 := by
        rw [Nat.div_div_eq_div_mul, ← pow_add, show 32 * j + 8 * k = 8 * (4 * j + k) by omega]

theorem toNat_byteLane (v : Word) (k : Nat) : (byteLane v k).toNat = v.toNat / 2 ^ (8 * k) % 2 ^ 8 := by
  rw [byteLane, BitVec.extractLsb'_toNat, Nat.shiftRight_eq_div_pow]

/-- Lane `k` of the word at an aligned offset is the byte `k` further on (R55). -/
theorem windowByte_of_busRead {W off k : Nat} {s : State} {v : Word} (ha : off % 4 = 0) (hk : k < 4)
    (h : s.busRead W off = .data v) : s.windowByte W (off + k) = some (byteLane v k) := by
  have hlane : (off + k) % 4 = k := by omega
  rw [State.windowByte, hlane, Nat.add_sub_cancel, h]

/-! ### the statements -/

/-- Settles O46: the admitted write is `replaceWord` on the one register, whose lemmas say what becomes of each word. -/
theorem registerWordsReadAndWrite : Obligations.RegisterWordsReadAndWrite := by
  unfold Obligations.RegisterWordsReadAndWrite
  intro s i j v hx hj
  constructor
  · intro hb
    exact ⟨_, by rw [busAccess_read_at, busRead_regWord hb hj, State.response_respond], toNat_ofNat_wordField ..⟩
  · intro hi
    have hreg : ((s.setReg i (replaceWord (s.reg i) j v)).respond .ok).reg i = replaceWord (s.reg i) j v := by simp
    refine ⟨_, busAccess_write_regWord hi hj v, rfl, ?_⟩
    rw [hreg]
    refine ⟨rfl, wordField_replaceWord_same .., fun k hk => wordField_replaceWord_ne _ v hk,
      replaceWord_lt v Config.W_mod hx hj, fun r hr => ?_, hi, rfl, ⟨rfl, rfl, rfl⟩, rfl, rfl⟩
    simp [State.reg_setReg, hr]

/-- Settles O47: byte `b` is lane `b % 4` of word `b / 4`. -/
theorem windowIsLittleEndian : Obligations.WindowIsLittleEndian := by
  unfold Obligations.WindowIsLittleEndian
  intro s i b hb hlt
  have hmod := Config.W_mod
  have hlane : b % 4 < 4 := Nat.mod_lt b (by decide)
  have hsplit : 4 * (b / 4) + b % 4 = b := Nat.div_add_mod b 4
  have hread := windowByte_of_busRead (regWord_offset_aligned hmod i (b / 4)) hlane
    (busRead_regWord (s := s) hb (by omega))
  rw [Nat.add_assoc, hsplit] at hread
  exact ⟨_, hread, by rw [toNat_byteLane, toNat_ofNat_wordField, wordField_byte _ _ hlane, hsplit]⟩

end Sys2Proof.Machine
end

section
/-! Decoding an encoded command (`spec/30_encoding.md` R73, R79). -/

namespace Sys2Proof

/-- A command's word decodes to the command: one row selects it and reads the command back. -/
theorem decode_encode (i : Instr) : decode (encode i) = .ok i := by
  have h : Laws.EncodedWord.Statement i := by
    cases i with
    | li rd imm20 => exact Laws.EncodedWord.li rd imm20
    | bitlen rd rs1 => exact Laws.EncodedWord.bitlen rd rs1
    | mont rd rk rs1 => exact Laws.EncodedWord.mont rd rk rs1
    | barrett rd rk rs1 => exact Laws.EncodedWord.barrett rd rk rs1
    | modinv rd rs1 rs2 => exact Laws.EncodedWord.modinv rd rs1 rs2
    | moddec rd rs1 rs2 => exact Laws.EncodedWord.moddec rd rs1 rs2
    | phi rd rs1 rs2 => exact Laws.EncodedWord.phi rd rs1 rs2
    | fermat rd rk rs1 rs2 => exact Laws.EncodedWord.fermat rd rk rs1 rs2
    | primegen rd rk rn rs1 => exact Laws.EncodedWord.primegen rd rk rn rs1
  obtain ⟨r, hr, hsel, hbuild⟩ := h
  rw [decode_of_selects hr hsel, hbuild]

end Sys2Proof
end

section
/-! The host's write of a command, the engine's turn and the host's poll (`spec/20_memory.md` R60,
`spec/70_reset_and_hazards.md` R204). -/

namespace Sys2Proof.Machine

open Sys2Proof

/-- A command takes no turn, and ends in IDLE with DONE or in FAULTED (R31). -/
theorem exec_end {i : Instr} {s t : State} (h : exec i s = .next t) :
    t.turns = s.turns ∧ ((t.execState = .idle ∧ t.done = true) ∨ t.execState = .faulted) := by
  rcases exec_cases h with ⟨r, -, rfl⟩ | ⟨c, -, rfl⟩
  · exact ⟨State.turns_commit s r, .inl ⟨rfl, rfl⟩⟩
  · exact ⟨rfl, .inr rfl⟩

/-- The turns a host program makes of one command: its CMD write, the engine's turn, the read of STATUS. -/
def commandTurns (i : Instr) (rest : List Turn) : List Turn :=
  .access (.write (Config.base + 0x010) (encode i)) :: .engine :: .access (.read (Config.base + 0x008)) :: rest

/-- The state in which the engine's turn finds a command launched by the turn before. -/
def State.afterLaunch (s : State) (i : Instr) : State := ((s.dropTurn.launch (encode i)).respond .ok).dropTurn

theorem sameEngine_afterLaunch (s : State) (i : Instr) : SameEngine (s.launch (encode i)) (s.afterLaunch i) :=
  sameEngine_trans (sameEngine_launch (sameEngine_dropTurn s) _)
    (sameEngine_trans (sameEngine_respond _ _) (sameEngine_dropTurn _))

/-- The three turns of a command in IDLE: launched, executed, and STATUS read. -/
theorem run_commandTurns {s u : State} {i : Instr} {rest : List Turn} (hi : s.execState = .idle)
    (ht : s.turns = commandTurns i rest) (hu : exec i (s.afterLaunch i) = .next u) :
    core.run 3 s = .next (u.dropTurn.respond (.data u.statusWord)) := by
  have hturns : u.turns = .access (.read (Config.base + 0x008)) :: rest := by
    rw [(exec_end hu).1]
    simp [State.afterLaunch, ht, commandTurns]
  have h1 : step s = .next ((s.dropTurn.launch (encode i)).respond .ok) := by
    rw [step_of_access (a := .write (Config.base + 0x010) (encode i)) (by simp [accessNext, ht, commandTurns]),
      busAccess_write_cmd (by simpa using hi)]
  have h2 : step ((s.dropTurn.launch (encode i)).respond .ok) = .next u := by
    rw [step_of_busy rfl (by simp [engineNext, ht, commandTurns]), complete_of_decode (decode_encode i)]
    exact hu
  have h3 : step u = .next (u.dropTurn.respond (.data u.statusWord)) := by
    rw [step_of_access (a := .read (Config.base + 0x008)) (by simp [accessNext, hturns]), busAccess_read_status]
    rfl
  rw [run_succ h1, run_succ h2, run_succ h3, run_zero]

/-- Settles O52: the read of STATUS finds the engine as the command left it, in IDLE with DONE or in FAULTED. -/
theorem pollSeesTheCommandEnd : Obligations.PollSeesTheCommandEnd := by
  unfold Obligations.PollSeesTheCommandEnd
  intro s i rest hi ht
  obtain ⟨u, hu⟩ := exec_eq_next i (s.afterLaunch i)
  obtain ⟨hturns, hend⟩ := exec_end hu
  refine ⟨s.afterLaunch i, u, u.dropTurn.respond (.data u.statusWord), u.statusWord, sameEngine_afterLaunch s i, hu,
    run_commandTurns hi ht hu, sameEngine_trans (sameEngine_dropTurn u) (sameEngine_respond _ _), ?_, rfl, ?_⟩
  · simp [hturns, State.afterLaunch, ht]
  · rw [statusWord_getLsbD, statusWord_getLsbD, statusWord_getLsbD]
    rcases hend with ⟨hidle, hdone⟩ | hfault
    · simp [hidle, hdone]
    · simp [hfault]

end Sys2Proof.Machine
end

section
/-! The command words (`spec/30_encoding.md` R71 to R79): which words the nine rows select, said by their fields, and
that encoding and decoding undo each other. -/

namespace Sys2Proof

/-! ### the fields that must be 0 -/

/-- The lowest bits of the four-bit fields that must be 0 in a word of this opcode (R73, R75). -/
def zeroFields : (opcode : Nat) → List Nat
  | 0x10 => [16, 20, 24, 28]
  | 0x11 | 0x12 => [16, 24, 28]
  | 0x13 | 0x14 | 0x15 => [20, 24, 28]
  | 0x16 => [24, 28]
  | 0x17 => [16, 28]
  | _ => []

/-- The runs of bits a row's mask covers: the opcode and each field that must be 0. -/
def OpcodeRow.runs (r : OpcodeRow) : List (Nat × Nat) :=
  (0, 8) :: (zeroFields r.pattern.toNat).map (·, 4)

theorem mask_eq_runs : ∀ r ∈ opcodeRows, ∀ i < 32,
    r.mask.getLsbD i = r.runs.any fun run => decide (run.1 ≤ i) && decide (i < run.1 + run.2) := by
  decide

theorem runs_le : ∀ r ∈ opcodeRows, ∀ run ∈ r.runs, run.1 + run.2 ≤ 32 := by decide

theorem pattern_and_mask : ∀ r ∈ opcodeRows, r.pattern &&& r.mask = r.pattern := by decide

theorem pattern_lt : ∀ r ∈ opcodeRows, r.pattern.toNat < 2 ^ 8 := by decide

theorem zeroFields_ge {op lo : Nat} (h : lo ∈ zeroFields op) : 8 ≤ lo := by
  unfold zeroFields at h
  split at h <;> simp at h <;> omega

theorem fieldReg_eq_zero_iff (lo : Nat) (w : Word) : fieldReg lo w = 0 ↔ w.toNat / 2 ^ lo % 2 ^ 4 = 0 := by
  rw [← fieldReg_val, Fin.ext_iff]; rfl

section

variable (w : Word)

@[simp] theorem fieldsOf_opcode : (fieldsOf w).opcode = (fieldOpcode w).toNat := rfl
@[simp] theorem fieldsOf_rs2 : (fieldsOf w).rs2 = (fieldReg 16 w).val := rfl
@[simp] theorem fieldsOf_rk : (fieldsOf w).rk = (fieldReg 20 w).val := rfl
@[simp] theorem fieldsOf_rn : (fieldsOf w).rn = (fieldReg 24 w).val := rfl
@[simp] theorem fieldsOf_zero : (fieldsOf w).zero = (fieldReg 28 w).val := rfl

end

/-- A row selects the words with its opcode and with 0 in the fields that must be 0 (R73, R75). -/
theorem selects_iff {r : OpcodeRow} (hr : r ∈ opcodeRows) (w : Word) :
    r.selects w = true ↔
      (fieldOpcode w).toNat = r.pattern.toNat ∧ ∀ lo ∈ zeroFields r.pattern.toNat, fieldReg lo w = 0 := by
  have hlt := pattern_lt r hr
  have hhigh (lo : Nat) (hlo : lo ∈ zeroFields r.pattern.toNat) : r.pattern.toNat / 2 ^ lo = 0 :=
    Nat.div_eq_of_lt (hlt.trans_le (Nat.pow_le_pow_right (by decide) (zeroFields_ge hlo)))
  rw [OpcodeRow.selects, beq_iff_eq, mask_iff_runs r.runs (mask_eq_runs r hr) (runs_le r hr) (pattern_and_mask r hr),
    OpcodeRow.runs, List.forall_mem_cons, List.forall_mem_map]
  refine and_congr ?_ (forall₂_congr fun lo hlo => ?_)
  · rw [fieldOpcode_toNat, Nat.pow_zero, Nat.div_one, Nat.div_one, Nat.mod_eq_of_lt hlt]
  · rw [fieldReg_eq_zero_iff, hhigh lo hlo, Nat.zero_mod]

/-- The check by fields is the table's: the opcode is a row's, and the row's fields that must be 0 are 0. -/
theorem wellFormed_iff (w : Word) : (fieldsOf w).wellFormed = true ↔
    (∃ r ∈ opcodeRows, (fieldOpcode w).toNat = r.pattern.toNat) ∧
      ∀ lo ∈ zeroFields (fieldOpcode w).toNat, fieldReg lo w = 0 := by
  by_cases hdef : ∃ r ∈ opcodeRows, (fieldOpcode w).toNat = r.pattern.toNat
  · simp only [hdef, true_and]
    obtain ⟨r, hr, hop⟩ := hdef
    simp only [opcodeRows, List.mem_cons, List.not_mem_nil, or_false] at hr
    rcases hr with rfl | rfl | rfl | rfl | rfl | rfl | rfl | rfl | rfl <;>
      simp [CommandFields.wellFormed, hop, zeroFields, and_assoc]
  · simp only [hdef, false_and, iff_false]
    rw [CommandFields.wellFormed, fieldsOf_opcode]
    split <;> simp_all [opcodeRows]

/-- The words that decode are those a row selects (R75). -/
theorem exists_decode_iff (w : Word) : (∃ i, decode w = .ok i) ↔ ∃ r ∈ opcodeRows, r.selects w = true := by
  constructor
  · rintro ⟨i, hi⟩
    obtain ⟨r, hr, hsel, -⟩ := decode_eq_ok hi
    exact ⟨r, hr, hsel⟩
  · rintro ⟨r, hr, hsel⟩
    exact ⟨_, decode_of_selects hr hsel⟩

/-! ### a word rebuilt from its fields -/

/-- An R-format word is its fields, when its `zero` field is 0 (R71). -/
theorem encodeR_fields {w : Word} (hz : fieldReg 28 w = 0) :
    encodeR (fieldOpcode w).toNat (fieldRd w) (fieldRs1 w) (fieldRs2 w) (fieldRk w) (fieldRn w) = w := by
  have hzero : (w.extractLsb' 28 4).toNat = 0 := congrArg Fin.val hz
  apply BitVec.eq_of_toNat_eq
  rw [toNat_encodeR (fieldOpcode w).isLt, word_eq_fields w, hzero, Nat.zero_mul, Nat.add_zero]

/-- An I-format word is its fields (R71). -/
theorem encodeI_fields (w : Word) : encodeI (fieldOpcode w).toNat (fieldRd w) (fieldImm20 w) = w := by
  have := w.isLt
  apply BitVec.eq_of_toNat_eq
  rw [toNat_encodeI (fieldOpcode w).isLt, fieldOpcode_toNat, fieldRd, fieldReg_val, fieldImm20_toNat]
  omega

/-- Every command but LI wants the `zero` field 0. -/
theorem zero_mem_zeroFields : ∀ r ∈ opcodeRows.tail, 28 ∈ zeroFields r.pattern.toNat := by decide

/-- The command a row builds from a word it selects has that word: the fields the command keeps are rebuilt from it,
and the others are 0. -/
theorem encode_build {r : OpcodeRow} (hr : r ∈ opcodeRows) {w : Word} (h : r.selects w = true) :
    encode (r.build w) = w := by
  obtain ⟨hop, hz⟩ := (selects_iff hr w).1 h
  rcases List.mem_cons.1 hr with rfl | hR
  · simpa [encode, hop] using encodeI_fields w
  · have hfields := encodeR_fields (hz 28 (zero_mem_zeroFields r hR))
    rw [hop] at hfields
    simp only [List.mem_cons, List.not_mem_nil, or_false] at hR
    rcases hR with rfl | rfl | rfl | rfl | rfl | rfl | rfl | rfl <;>
      simp_all [zeroFields, encode, fieldRs2, fieldRk, fieldRn]

/-- `decode` and `encode` are inverse to each other on the legal words (R73). -/
theorem decode_eq_ok_iff (w : Word) (i : Instr) : decode w = .ok i ↔ encode i = w := by
  constructor
  · intro h
    obtain ⟨r, hr, hsel, rfl⟩ := decode_eq_ok h
    exact encode_build hr hsel
  · rintro rfl
    exact decode_encode i

/-! ### the statements -/

/-- Settles O33: the row of the command's own opcode selects its word and reads the operands back. -/
theorem decodeOfEncodeIsTheCommand : Obligations.DecodeOfEncodeIsTheCommand := by
  unfold Obligations.DecodeOfEncodeIsTheCommand
  exact decode_encode

/-- Settles O34: a row's fields and the fields it wants 0 are the whole word. -/
theorem encodeOfDecodeIsTheWord : Obligations.EncodeOfDecodeIsTheWord := by
  unfold Obligations.EncodeOfDecodeIsTheWord
  exact fun w i => (decode_eq_ok_iff w i).1

/-- Settles O35: a row that selects a word has its opcode, and the opcodes of the rows differ. -/
theorem opcodeRowsAreDisjoint : Obligations.OpcodeRowsAreDisjoint := by
  unfold Obligations.OpcodeRowsAreDisjoint
  have hne : opcodeRows.Pairwise fun a b => a.pattern.toNat ≠ b.pattern.toNat := by decide
  refine hne.imp_of_mem fun ha hb hab w ⟨hsa, hsb⟩ => hab ?_
  rw [← ((selects_iff ha w).1 hsa).1, ((selects_iff hb w).1 hsb).1]

/-- Settles O36: both sides say that a row has the word's opcode and that its fields that must be 0 are 0. -/
theorem illegalWordsByTheirFields : Obligations.IllegalWordsByTheirFields := by
  unfold Obligations.IllegalWordsByTheirFields
  intro w
  rw [exists_decode_iff, wellFormed_iff]
  constructor
  · rintro ⟨r, hr, hsel⟩
    obtain ⟨hop, hz⟩ := (selects_iff hr w).1 hsel
    exact ⟨⟨r, hr, hop⟩, hop ▸ hz⟩
  · rintro ⟨⟨r, hr, hop⟩, hz⟩
    exact ⟨r, hr, (selects_iff hr w).2 ⟨hop, hop ▸ hz⟩⟩

/-- Settles O37: the immediate is all that is left above bit 12. -/
theorem fieldsAreTheStatedBits : Obligations.FieldsAreTheStatedBits := by
  unfold Obligations.FieldsAreTheStatedBits
  intro w
  have himm : (fieldImm20 w).toNat = w.toNat / 2 ^ 12 := by
    have := w.isLt
    rw [fieldImm20_toNat]
    omega
  exact ⟨fieldOpcode_toNat w, fieldReg_val 8 w, fieldReg_val 12 w, fieldReg_val 16 w, fieldReg_val 20 w,
    fieldReg_val 24 w, himm⟩

/-- Settles O38: each word is the encoding of the command beside it. -/
theorem sampleWordsDecode : Obligations.SampleWordsDecode := by
  unfold Obligations.SampleWordsDecode
  simp only [decode_eq_ok_iff]
  decide

end Sys2Proof
end

section
/-! The host directives HOSTWR and HOSTRD (`spec/30_encoding.md` R77). -/

namespace Sys2Proof.Machine

open Sys2Proof

/-- HOSTWR of a `W`-bit number leaves it in the register, and the other registers as they were. -/
theorem hostWrite_eq {r : Reg} {v : Nat} {s : State} (hi : s.execState = .idle) (hx : s.reg r < 2 ^ Config.W)
    (hv : v < 2 ^ Config.W) :
    (s.hostWrite r v).execState = .idle ∧ (∀ q : Reg, q ≠ r → (s.hostWrite r v).reg q = s.reg q) ∧
      (s.hostWrite r v).reg r = v := by
  obtain ⟨hidle, -, -, hothers, hreg⟩ := hostWriteWords_eq r v s hi (Config.W / 32) le_rfl
  have hW : 32 * (Config.W / 32) = Config.W := Nat.mul_div_cancel' (Nat.dvd_of_mod_eq_zero Config.W_mod)
  refine ⟨hidle, hothers, ?_⟩
  rw [State.hostWrite, hreg, hW, Nat.mod_eq_of_lt hv, Nat.div_eq_of_lt hx, Nat.zero_mul, Nat.add_zero]

/-- Settles O53: the `W/32` words written are the whole register, and HOSTRD reads the whole register. -/
theorem hostWriteThenHostRead : Obligations.HostWriteThenHostRead := by
  unfold Obligations.HostWriteThenHostRead
  intro s r v hi hx hv
  obtain ⟨hidle, hothers, hreg⟩ := hostWrite_eq hi hx hv
  have hread := hostRead_eq r (s.hostWrite r v) (by simp [hidle]) (by rwa [hreg])
  exact ⟨hreg, hothers, hread.trans (congrArg some hreg), hidle⟩

end Sys2Proof.Machine
end

section
/-! FERMAT and PRIMEGEN (`spec/40_primegen.md` R90 to R97): the retry loop read as a sequence of numbered attempts, and
the size of the numbers an attempt draws. -/

namespace Sys2Proof.Machine

open Sys2Proof

/-- The words a row's mask and pattern select decode to the row's command (R73). -/
theorem decode_of_mask {r : OpcodeRow} (hr : r ∈ opcodeRows) {w : Word} (h : w &&& r.mask = r.pattern) :
    decode w = .ok (r.build w) :=
  decode_of_selects hr (beq_iff_eq.2 h)

/-- A command that completes keeps everything but its destinations and what its result names (R31). -/
theorem retires_of_result {i : Instr} {s : State} {r : Result} (h : commandResult i s = .ok r) :
    Retires (destinations i) s (s.commit r) :=
  commandResult_writes h ▸ retires_commit s r

/-! ### the size of a pair -/

theorem bitLength_drawPrime {b : Nat} (hb : 2 ≤ b) (g : RngState) : bitLength (Config.drawPrime b g).1 = b :=
  (bitLength_eq_iff (by omega)).2 ⟨Config.drawPrime_min b g hb, Config.drawPrime_max b g hb⟩

/-- A product has as many bits as its factors together, or one less. -/
theorem bitLength_mul {p q : Nat} (hp : 1 ≤ bitLength p) (hq : 1 ≤ bitLength q) :
    bitLength (p * q) = bitLength p + bitLength q - 1 ∨ bitLength (p * q) = bitLength p + bitLength q := by
  have hlt : p * q < 2 ^ (bitLength p + bitLength q) := by
    rw [pow_add]
    exact Nat.mul_lt_mul'' (lt_two_pow_bitLength p) (lt_two_pow_bitLength q)
  have hle : 2 ^ (bitLength p + bitLength q - 2) ≤ p * q := by
    rw [show bitLength p + bitLength q - 2 = (bitLength p - 1) + (bitLength q - 1) by omega, pow_add]
    exact Nat.mul_le_mul (two_pow_le_of_lt_bitLength (by omega)) (two_pow_le_of_lt_bitLength (by omega))
  have hupper := (bitLength_le_iff _ _).2 hlt
  have hlower : ¬ bitLength (p * q) ≤ bitLength p + bitLength q - 2 := fun h =>
    absurd ((bitLength_le_iff _ _).1 h) (not_lt.2 hle)
  omega

/-- A number with at least two bits more is more than twice as large. -/
theorem double_lt_of_bitLength {p q : Nat} (h : bitLength q + 2 ≤ bitLength p) : 2 * q < p := by
  have hq := lt_two_pow_bitLength q
  have hp : 2 ^ (bitLength q + 1) ≤ p := two_pow_le_of_lt_bitLength (by omega)
  rw [pow_succ] at hp
  omega

section

variable {L k : Nat} (g : RngState)

theorem bitLength_attemptP (h : 2 ≤ L) : bitLength (attemptP Config.drawPrime L g k) = L + k :=
  bitLength_drawPrime (by omega) _

theorem bitLength_attemptQ (h : k + 2 ≤ L) : bitLength (attemptQ Config.drawPrime L g k) = L - k :=
  bitLength_drawPrime (by omega) _

theorem prp_attemptP (h : 2 ≤ L) : Config.prp (attemptP Config.drawPrime L g k) = true :=
  Config.drawPrime_prp _ _ (by omega)

theorem prp_attemptQ (h : k + 2 ≤ L) : Config.prp (attemptQ Config.drawPrime L g k) = true :=
  Config.drawPrime_prp _ _ (by omega)

/-- The draws of an attempt are accepted, since p has `2·k` bits more than q (R96). -/
theorem attempt_accepted (hk : 1 ≤ k) (h : k + 2 ≤ L) :
    FermatAccepts (attemptP Config.drawPrime L g k) (attemptQ Config.drawPrime L g k) := by
  apply fermatAccepts_of_double_lt
  apply double_lt_of_bitLength
  rw [bitLength_attemptP g (by omega), bitLength_attemptQ g h]
  omega

end

/-! ### the retry loop, attempt by attempt -/

theorem primeAttempts_of_rest_le_one {maxatt L rest k : Nat} {draw : Nat → RngState → Nat × RngState} {g : RngState}
    (h : rest ≤ 1) : primeAttempts maxatt draw L rest k g = .error .invalidInput := by
  obtain rfl | rfl : rest = 0 ∨ rest = 1 := by omega
  · rfl
  · rfl

theorem primeAttempts_of_maxatt_lt {maxatt L rest k : Nat} {draw : Nat → RngState → Nat × RngState} {g : RngState}
    (h : 2 ≤ rest) (hk : maxatt < k) :
    primeAttempts maxatt draw L rest k g = .error .primeGenerationExhaustion := by
  obtain ⟨rest, rfl⟩ : ∃ n, rest = n + 2 := ⟨rest - 2, by omega⟩
  rw [primeAttempts, if_pos hk]

/-- What attempt `k` delivers when it is accepted (R95). -/
def attemptPair (draw : Nat → RngState → Nat × RngState) (L : Nat) (g : RngState) (k : Nat) : PrimePair where
  p := attemptP draw L g k
  q := attemptQ draw L g k
  n := attemptP draw L g k * attemptQ draw L g k
  attempt := k
  rng := rngAfter draw L g k

section

variable {maxatt L k : Nat} {draw : Nat → RngState → Nat × RngState} {g : RngState}

/-- The loop after `k` attempts: attempt `k + 1` is delivered, or the loop goes on after it. -/
theorem primeAttempts_attempt (hm : k + 1 ≤ maxatt) (hL : k + 3 ≤ L) :
    primeAttempts maxatt draw L (L - (k + 1)) (k + 1) (rngAfter draw L g k) =
      if fermatOk (attemptP draw L g (k + 1)) (attemptQ draw L g (k + 1)) then .ok (attemptPair draw L g (k + 1))
      else primeAttempts maxatt draw L (L - (k + 2)) (k + 2) (rngAfter draw L g (k + 1)) := by
  have hrest : L - (k + 1) = L - (k + 3) + 2 := by omega
  have hnext : L - (k + 2) = L - (k + 3) + 1 := by omega
  rw [hrest, primeAttempts_step _ _ _ _ _ _ hm, hnext]
  simp only [attemptPair, attemptP, attemptQ, rngAfter, Nat.add_sub_cancel, hrest]

/-- When the first `k` attempts are rejected, the loop goes on from their end. -/
theorem primeAttempts_of_rejected (hm : k ≤ maxatt) (hL : k ≤ L - 2)
    (hrej : ∀ j, 1 ≤ j → j ≤ k → ¬ FermatAccepts (attemptP draw L g j) (attemptQ draw L g j)) :
    primeAttempts maxatt draw L (L - 1) 1 g =
      primeAttempts maxatt draw L (L - (k + 1)) (k + 1) (rngAfter draw L g k) := by
  induction k with
  | zero => rfl
  | succ k ih =>
    have hlast := mt (fermatOk_iff _ _).1 (hrej (k + 1) (by omega) le_rfl)
    rw [ih (by omega) (by omega) fun j h1 hj => hrej j h1 (by omega), primeAttempts_attempt hm (by omega),
      if_neg hlast]

/-- The first attempt that is accepted is delivered. -/
theorem primeAttempts_of_first_accepted (hk : 1 ≤ k) (hm : k ≤ maxatt) (hL : k + 2 ≤ L)
    (hacc : FermatAccepts (attemptP draw L g k) (attemptQ draw L g k))
    (hrej : ∀ j, 1 ≤ j → j < k → ¬ FermatAccepts (attemptP draw L g j) (attemptQ draw L g j)) :
    primeAttempts maxatt draw L (L - 1) 1 g = .ok (attemptPair draw L g k) := by
  obtain ⟨k, rfl⟩ : ∃ n, k = n + 1 := ⟨k - 1, by omega⟩
  rw [primeAttempts_of_rejected (k := k) (by omega) (by omega) fun j h1 hj => hrej j h1 (by omega),
    primeAttempts_attempt hm hL, if_pos ((fermatOk_iff _ _).2 hacc)]

/-- When every attempt is rejected, the loop ends where the lengths or the attempts run out; where both do, it is the
lengths that count. -/
theorem primeAttempts_of_all_rejected
    (hrej : ∀ j, 1 ≤ j → j ≤ maxatt → j + 2 ≤ L → ¬ FermatAccepts (attemptP draw L g j) (attemptQ draw L g j)) :
    (L - 2 ≤ maxatt → primeAttempts maxatt draw L (L - 1) 1 g = .error .invalidInput) ∧
      (maxatt < L - 2 → primeAttempts maxatt draw L (L - 1) 1 g = .error .primeGenerationExhaustion) := by
  constructor
  · intro h
    rw [primeAttempts_of_rejected h le_rfl fun j h1 hj => hrej j h1 (by omega) (by omega)]
    exact primeAttempts_of_rest_le_one (by omega)
  · intro h
    rw [primeAttempts_of_rejected le_rfl h.le fun j h1 hj => hrej j h1 hj (by omega)]
    exact primeAttempts_of_maxatt_lt (by omega) (by omega)

end

/-- The loop never asks for fewer than two bits: p has more than `L` and q has `rest`. -/
theorem primeAttempts_congr {maxatt L : Nat} {draw draw' : Nat → RngState → Nat × RngState}
    (hd : ∀ b g, 2 ≤ b → draw b g = draw' b g) :
    ∀ {rest : Nat}, rest ≤ L → ∀ (k : Nat) (g : RngState),
      primeAttempts maxatt draw L rest k g = primeAttempts maxatt draw' L rest k g
  | 0, _, _, _ => rfl
  | 1, _, _, _ => rfl
  | rest + 2, hrest, k, g => by
    have ih := primeAttempts_congr (maxatt := maxatt) (L := L) hd (rest := rest + 1) (by omega)
    simp only [primeAttempts, hd (L + k) g (by omega), hd (rest + 2) _ (by omega), ih]

/-! ### the command -/

/-- What PRIMEGEN writes for a delivered pair (R95). -/
def primegenResult (rd rk rn : Reg) (k : PrimePair) : Result where
  writes := [(rn, k.n), (rk, k.q), (rd, k.p)]
  att := some (BitVec.ofNat 32 k.attempt)
  rng := some k.rng

/-- The registers after the three writes; of two writes to one register the later remains (R22). -/
theorem reg_commit_primegenResult (s : State) (rd rk rn : Reg) (k : PrimePair) :
    (s.commit (primegenResult rd rk rn k)).reg rd = k.p ∧
      (rk ≠ rd → (s.commit (primegenResult rd rk rn k)).reg rk = k.q) ∧
      (rn ≠ rk → rn ≠ rd → (s.commit (primegenResult rd rk rn k)).reg rn = k.n) := by
  refine ⟨?_, fun hkd => ?_, fun hnk hnd => ?_⟩
  · simp [primegenResult]
  · simp [primegenResult, State.reg_setReg, hkd]
  · simp [primegenResult, State.reg_setReg, hnk, hnd]

theorem commandResult_primegen {rd rk rn rs1 : Reg} {s : State} (hL : 2 * s.reg rs1 ≤ Config.W) :
    commandResult (.primegen rd rk rn rs1) s =
      (primeAttempts s.maxatt.toNat Config.drawPrime (s.reg rs1) (s.reg rs1 - 1) 1 s.rng).map
        (primegenResult rd rk rn) := by
  rw [commandResult, primePair_of_le hL]
  rfl

theorem commandResult_primegen_ok {rd rk rn rs1 : Reg} {s : State} {k : PrimePair} (hL : 2 * s.reg rs1 ≤ Config.W)
    (h : primeAttempts s.maxatt.toNat Config.drawPrime (s.reg rs1) (s.reg rs1 - 1) 1 s.rng = .ok k) :
    commandResult (.primegen rd rk rn rs1) s = .ok (primegenResult rd rk rn k) := by
  rw [commandResult_primegen hL, h]; rfl

theorem faults_primegen {rd rk rn rs1 : Reg} {s : State} {c : Cause} (hL : 2 * s.reg rs1 ≤ Config.W)
    (h : primeAttempts s.maxatt.toNat Config.drawPrime (s.reg rs1) (s.reg rs1 - 1) 1 s.rng = .error c) :
    Faults (.primegen rd rk rn rs1) s c :=
  faults_of_result (by rw [commandResult_primegen hL, h]; rfl)

/-- An attempt number that MAXATT allows is stored in ATT as it is. -/
theorem attempt_toNat {k : Nat} {m : Word} (h : k ≤ m.toNat) : (BitVec.ofNat 32 k).toNat = k := by
  rw [BitVec.toNat_ofNat, Nat.mod_eq_of_lt (h.trans_lt m.isLt)]

@[simp] theorem State.rng_faultEntry (s : State) (c : Cause) : (s.faultEntry c).rng = s.rng := rfl

/-- A completed command that changes `rng` is a PRIMEGEN. -/
theorem primegen_of_rng_commit_ne {i : Instr} {s : State} {r : Result} (h : commandResult i s = .ok r)
    (hne : (s.commit r).rng ≠ s.rng) : ∃ rd rk rn rs1, i = .primegen rd rk rn rs1 :=
  commandResult_random h (.inr fun hn => hne (by simp [hn]))

/-! ### the statements -/

/-- Settles O17: the product fits or it does not; `isqrt` and the verdict are those of R15 and R93. -/
theorem fermatTestsThePair : Obligations.FermatTestsThePair := by
  unfold Obligations.FermatTestsThePair
  refine ⟨fun w h => decode_of_mask (r := opcodeRows[7]) (List.getElem_mem _) h, fun rd rk rs1 rs2 s => ⟨?_, ?_⟩⟩
  · intro hle
    exact faults_of_result (by rw [commandResult, fermatVerdict_of_le hle]; rfl)
  · intro hlt
    have hres : commandResult (.fermat rd rk rs1 rs2) s = .ok
        { writes := [(rk, isqrt (s.reg rs1 * s.reg rs2 / 2)), (rd, s.reg rs1 * s.reg rs2)]
          acc := some (fermatOk (s.reg rs1) (s.reg rs2)) } := by
      rw [commandResult, fermatVerdict_of_lt hlt]; rfl
    refine ⟨_, exec_of_result hres, by simp, ?_, ?_, retires_of_result hres, rfl, rfl⟩
    · intro hne r
      simpa [State.reg_setReg, hne] using le_isqrt_iff r (s.reg rs1 * s.reg rs2 / 2)
    · simpa using fermatOk_iff (s.reg rs1) (s.reg rs2)

/-- Settles O18: the loop's rejected attempts are passed over one by one, up to the one it ends at. -/
theorem primegenRunsTheBoundedRetryLoop : Obligations.PrimegenRunsTheBoundedRetryLoop := by
  unfold Obligations.PrimegenRunsTheBoundedRetryLoop
  refine ⟨fun w h => decode_of_mask (r := opcodeRows[8]) (List.getElem_mem _) h, fun rd rk rn rs1 s => ⟨?_, ?_, ?_⟩⟩
  · intro hW
    exact faults_of_result (by rw [commandResult, primePair_of_lt hW]; rfl)
  · intro hL hrej
    obtain ⟨hinvalid, hexhausted⟩ := primeAttempts_of_all_rejected hrej
    exact ⟨fun h => faults_primegen hL (hinvalid h), fun h => faults_primegen hL (hexhausted h)⟩
  · intro hL k hk hm hk2 hacc hrej
    have hok := primeAttempts_of_first_accepted hk hm hk2 hacc hrej
    have hres := commandResult_primegen_ok (rd := rd) (rk := rk) (rn := rn) hL hok
    obtain ⟨hp, hq, hn⟩ := reg_commit_primegenResult s rd rk rn (attemptPair Config.drawPrime (s.reg rs1) s.rng k)
    exact ⟨_, exec_of_result hres, hp, hq, hn, attempt_toNat hm, rfl, rfl, retires_of_result hres⟩

/-- Settles O19: below `L = 3` and at `MAXATT = 0` there is no attempt to make; otherwise DrawPrime's contract makes
the first one pass. -/
theorem primegenOutcomeTable : Obligations.PrimegenOutcomeTable := by
  unfold Obligations.PrimegenOutcomeTable
  intro rd rk rn rs1 s
  obtain ⟨hoverflow, hrejected, haccepted⟩ := primegenRunsTheBoundedRetryLoop.2 rd rk rn rs1 s
  have hWmin := Config.W_min
  refine ⟨hoverflow, ?_, ?_, ?_⟩
  · intro hL
    exact (hrejected (by omega) fun k h1 _ h2 => by omega).1 (by omega)
  · intro h3 hL hm
    have hm0 : s.maxatt.toNat = 0 := by simp [hm]
    exact (hrejected hL fun k h1 h2 _ => by omega).2 (by omega)
  · intro h3 hL hm
    have hm1 : 1 ≤ s.maxatt.toNat := Nat.pos_of_ne_zero fun h => hm (BitVec.eq_of_toNat_eq h)
    obtain ⟨t, ht, hp, hq, hn, hatt, -, hacc, hret⟩ := haccepted hL 1 le_rfl hm1 h3 (attempt_accepted s.rng le_rfl h3)
      fun j h1 hj => by omega
    have hbp := bitLength_attemptP (k := 1) s.rng (show 2 ≤ s.reg rs1 by omega)
    have hbq := bitLength_attemptQ (k := 1) s.rng h3
    have hbn := bitLength_mul (by rw [hbp]; omega) (by rw [hbq]; omega)
    rw [hbp, hbq, show s.reg rs1 + 1 + (s.reg rs1 - 1) = 2 * s.reg rs1 by omega] at hbn
    exact ⟨t, ht, BitVec.eq_of_toNat_eq hatt, hacc, hret, _, _, hp, hq, hn, hbp, hbq, hbn,
      (bitLength_le_iff _ _).1 (by omega), prp_attemptP s.rng (by omega), prp_attemptQ s.rng h3⟩

/-- Settles O20: what the loop delivers is an attempt in range, whose draws have the lengths asked for. -/
theorem generatedPairInvariant : Obligations.GeneratedPairInvariant := by
  unfold Obligations.GeneratedPairInvariant
  intro rd rk rn rs1 s t hdk hdn hkn h hidle
  rcases exec_cases h with ⟨r, hr, rfl⟩ | ⟨c, -, rfl⟩
  · obtain ⟨-, k, hloop, hresult⟩ := primegen_result hr
    obtain rfl : r = primegenResult rd rk rn k := hresult
    obtain ⟨hrd, hrk, hrn⟩ := reg_commit_primegenResult s rd rk rn k
    obtain ⟨hk1, hkm, hkL, hn, hok, g, hp, hq⟩ := primeAttempts_ok hloop
    have hatt : (s.commit (primegenResult rd rk rn k)).att.toNat = k.attempt := attempt_toNat hkm
    have hbp : bitLength k.p = s.reg rs1 + k.attempt := hp ▸ bitLength_drawPrime (by omega) _
    have hbq : bitLength k.q = s.reg rs1 - 1 + 1 - k.attempt := hq ▸ bitLength_drawPrime (by omega) _
    have hpp : Config.prp k.p = true := hp ▸ Config.drawPrime_prp _ _ (by omega)
    have hpq : Config.prp k.q = true := hq ▸ Config.drawPrime_prp _ _ (by omega)
    have hlt : 2 * k.q < k.p := double_lt_of_bitLength (by omega)
    rw [hrd, hrk hdk.symm, hrn hkn.symm hdn.symm, hatt, State.maxatt_commit]
    exact ⟨hn, hpp, hpq, hbp, by omega, hk1, hkm, by omega, (fermatOk_iff _ _).1 hok, by omega⟩
  · cases hidle

/-- Settles O21: the range check draws nothing, and the loop asks for two bits or more. -/
theorem primegenNeverRequestsFewerThanTwoBits : Obligations.PrimegenNeverRequestsFewerThanTwoBits := by
  unfold Obligations.PrimegenNeverRequestsFewerThanTwoBits
  intro W maxatt L draw draw' g hd
  rw [primePair, primePair, primeAttempts_congr hd (Nat.sub_le L 1)]

/-- Settles O28: by the cases of a step; of the results only a PRIMEGEN's names `rng`, and a fault entry keeps it. -/
theorem randomStateChangesOnlyByPrimegenOrReset : Obligations.RandomStateChangesOnlyByPrimegenOrReset := by
  unfold Obligations.RandomStateChangesOnlyByPrimegenOrReset
  intro s t h hne
  rcases step_cases h with ⟨he, hb, i, r, hd, hr, rfl⟩ | ⟨-, -, c, rfl⟩ | ⟨-, -, rfl⟩ | ⟨a, rfl⟩ | ⟨hr, -⟩ |
    ⟨-, w, -, rfl⟩ | ⟨-, w, -, rfl⟩ | ⟨-, q, j, w, -, -, rfl⟩
  · obtain ⟨rd, rk, rn, rs1, rfl⟩ := primegen_of_rng_commit_ne hr hne
    exact .inr ⟨hb, he, rd, rk, rn, rs1, hd⟩
  · simp at hne
  · simp at hne
  · simp at hne
  · exact .inl hr
  · simp at hne
  · simp at hne
  · simp at hne

end Sys2Proof.Machine
end

section
/-! BARRETT (`spec/41_barrett.md` R110 to R112): the size of the factor, and the moduli whose factor does not fit. -/

namespace Sys2Proof.Machine

open Sys2Proof

/-! ### the size of the factor -/

section

variable {W m : Nat}

/-- R111: the factor has at most two bits more than the modulus. -/
theorem barrettFactor_le (hm : m ≠ 0) : 2 ^ (2 * bitLength m) / m ≤ 2 ^ (bitLength m + 1) := by
  have hpos := bitLength_pos hm
  apply Nat.div_le_of_le_mul
  calc 2 ^ (2 * bitLength m) = 2 ^ (bitLength m - 1) * 2 ^ (bitLength m + 1) := by
        rw [← pow_add, show bitLength m - 1 + (bitLength m + 1) = 2 * bitLength m by omega]
    _ ≤ m * 2 ^ (bitLength m + 1) := Nat.mul_le_mul_right _ (two_pow_le_of_lt_bitLength (by omega))

/-- R112, for at most `W - 2` bits: the factor is below `2^W`. -/
theorem barrettFactor_lt (hm : m ≠ 0) (hk : bitLength m + 2 ≤ W) : 2 ^ (2 * bitLength m) / m < 2 ^ W :=
  (barrettFactor_le hm).trans_lt (Nat.pow_lt_pow_right (by decide) (by omega))

/-- From half of `W` bits on, the factor reaches `2^W` when the modulus is at most the quotient of the powers of two. -/
theorem two_pow_le_barrettFactor_iff (hm : m ≠ 0) (hk : W ≤ 2 * bitLength m) :
    2 ^ W ≤ 2 ^ (2 * bitLength m) / m ↔ m ≤ 2 ^ (2 * bitLength m - W) := by
  rw [Nat.le_div_iff_mul_le (Nat.pos_of_ne_zero hm), mul_comm, ← Nat.le_div_iff_mul_le (by positivity),
    Nat.pow_div hk (by decide)]

/-- R112: the table of the moduli whose factor does not fit, row by row of their bit length. -/
theorem barrettFactor_overflows_iff (hW : 2 ≤ W) (hm : m ≠ 0) (hfits : m < 2 ^ W) :
    2 ^ W ≤ 2 ^ (2 * bitLength m) / m ↔ m = 2 ^ (W - 2) ∨ bitLength m = W := by
  have hle : bitLength m ≤ W := (bitLength_le_iff m W).2 hfits
  obtain hk | hk | hk : bitLength m + 2 ≤ W ∨ bitLength m = W - 1 ∨ bitLength m = W := by omega
  · have hsmall : m < 2 ^ (W - 2) := (bitLength_le_iff m _).1 (by omega)
    have hlt := barrettFactor_lt hm hk
    omega
  · have hlow : 2 ^ (W - 2) ≤ m := two_pow_le_of_lt_bitLength (by omega)
    rw [two_pow_le_barrettFactor_iff hm (by omega), show 2 * bitLength m - W = W - 2 by omega]
    omega
  · rw [two_pow_le_barrettFactor_iff hm (by omega), show 2 * bitLength m - W = W by omega]
    omega

end

/-! ### the command -/

/-- A command that completes does not fault. -/
theorem not_faults_of_result {i : Instr} {s : State} {r : Result} {c : Cause} (h : commandResult i s = .ok r) :
    ¬ Faults i s c := by
  rintro ⟨t, ht, hentered⟩
  rw [exec_of_result h] at ht
  cases ht
  cases hentered.faulted

section

variable {rd rk rs1 : Reg} {s : State}

/-- What BARRETT writes when the factor fits (R111). -/
theorem commandResult_barrett (hm : s.reg rs1 ≠ 0)
    (hf : 2 ^ (2 * bitLength (s.reg rs1)) / s.reg rs1 < 2 ^ Config.W) :
    commandResult (.barrett rd rk rs1) s = .ok
      { writes := [(rk, 2 * bitLength (s.reg rs1)), (rd, 2 ^ (2 * bitLength (s.reg rs1)) / s.reg rs1)] } := by
  rw [commandResult, barrettConstants_of_lt hm hf]; rfl

/-- For a modulus other than 0, RangeOverflow is the fault of a factor that does not fit (R111). -/
theorem faults_barrett_overflow_iff (hm : s.reg rs1 ≠ 0) :
    Faults (.barrett rd rk rs1) s .rangeOverflow ↔ 2 ^ Config.W ≤ 2 ^ (2 * bitLength (s.reg rs1)) / s.reg rs1 := by
  constructor
  · intro hfault
    by_contra hf
    exact not_faults_of_result (commandResult_barrett hm (not_le.1 hf)) hfault
  · intro hf
    exact faults_of_result (by rw [commandResult, barrettConstants_of_le hm hf]; rfl)

end

/-! ### the statements -/

/-- Settles O11: by the three ends of the pure result, the zero modulus, the factor that overflows and the one that
fits; the factor is written last. -/
theorem barrettWritesTheBarrettConstants : Obligations.BarrettWritesTheBarrettConstants := by
  unfold Obligations.BarrettWritesTheBarrettConstants
  refine ⟨fun w h => decode_of_mask (r := opcodeRows[3]) (List.getElem_mem _) h, fun rd rk rs1 s => ⟨?_, ?_, ?_⟩⟩
  · intro h0
    exact faults_of_result (by rw [commandResult, h0, barrettConstants_zero]; rfl)
  · intro hm hf
    exact (faults_barrett_overflow_iff hm).2 hf
  · intro hm hf
    have hres := commandResult_barrett (rd := rd) (rk := rk) hm hf
    refine ⟨_, exec_of_result hres, by simp, fun hne => ?_, retires_of_result hres, rfl, rfl, rfl⟩
    simp [State.reg_setReg, hne]

/-- Settles O12: the fault is the factor's overflow, and the factor overflows as tabulated. -/
theorem barrettOverflowsExactlyAsTabulated : Obligations.BarrettOverflowsExactlyAsTabulated := by
  unfold Obligations.BarrettOverflowsExactlyAsTabulated
  intro rd rk rs1 s hm hfits
  have hW : 2 ≤ Config.W := le_trans (by decide) Config.W_min
  rw [faults_barrett_overflow_iff hm, barrettFactor_overflows_iff hW hm hfits]

end Sys2Proof.Machine
end

section
/-! BITLEN and MONT (`spec/42_montgomery.md` R120 to R123): what each writes, and the bit length they share. -/

namespace Sys2Proof.Machine

open Sys2Proof

section

variable {rd rk rs1 : Reg} {s t : State}

/-- What BITLEN writes, for every source (R120). -/
theorem commandResult_bitlen : commandResult (.bitlen rd rs1) s = .ok { writes := [(rd, bitLength (s.reg rs1))] } :=
  rfl

/-- What MONT writes for a modulus other than 0, the bit length first (R122). -/
theorem commandResult_mont (hm : s.reg rs1 ≠ 0) :
    commandResult (.mont rd rk rs1) s = .ok
      { writes := [(rk, bitLength (s.reg rs1)), (rd, 2 ^ (2 * bitLength (s.reg rs1)) % s.reg rs1)] } := by
  rw [commandResult, montgomeryConstants_of_ne_zero hm]; rfl

/-- A command that ends in IDLE has committed its result; the fault entry ends in FAULTED. -/
theorem exists_result_of_exec_idle {i : Instr} (h : exec i s = .next t) (hidle : t.execState = .idle) :
    ∃ r, commandResult i s = .ok r ∧ t = s.commit r := by
  obtain hok | ⟨c, -, rfl⟩ := exec_cases h
  · exact hok
  · cases hidle

/-- After BITLEN the destination holds the bit length of the source (R120). -/
theorem reg_of_exec_bitlen (h : exec (.bitlen rd rs1) s = .next t) : t.reg rd = bitLength (s.reg rs1) := by
  rw [exec_of_result commandResult_bitlen] at h
  cases h
  simp

/-- After MONT has completed, `rk` holds the bit length of the modulus, unless `rr` was written over it (R122). -/
theorem reg_rk_of_exec_mont (hne : rk ≠ rd) (h : exec (.mont rd rk rs1) s = .next t) (hidle : t.execState = .idle) :
    t.reg rk = bitLength (s.reg rs1) := by
  obtain ⟨r, hres, rfl⟩ := exists_result_of_exec_idle h hidle
  obtain ⟨-, rfl⟩ := mont_result hres
  simp [State.reg_setReg, hne]

end

/-! ### the statements -/

/-- Settles O8: the bit length is characterised by R13, and a source of `W` bits has at most `W` of them. -/
theorem bitlenWritesTheBitLength : Obligations.BitlenWritesTheBitLength := by
  unfold Obligations.BitlenWritesTheBitLength
  refine ⟨fun w h => decode_of_mask (r := opcodeRows[1]) (List.getElem_mem _) h, fun rd rs1 s => ?_⟩
  have hres := commandResult_bitlen (rd := rd) (rs1 := rs1) (s := s)
  have hexec := exec_of_result hres
  have hreg := reg_of_exec_bitlen hexec
  refine ⟨_, hexec, fun k => ?_, fun hfits => ?_, retires_of_result hres, rfl, rfl, rfl⟩
  · rw [hreg, bitLength_le_iff]
  · rwa [hreg, bitLength_le_iff]

/-- Settles O9: by the two ends of the pure result, the zero modulus and any other; `rr` is written last. -/
theorem montWritesTheMontgomeryConstants : Obligations.MontWritesTheMontgomeryConstants := by
  unfold Obligations.MontWritesTheMontgomeryConstants
  refine ⟨fun w h => decode_of_mask (r := opcodeRows[2]) (List.getElem_mem _) h, fun rd rk rs1 s => ⟨?_, ?_⟩⟩
  · intro h0
    exact faults_of_result (by rw [commandResult, h0, montgomeryConstants_zero]; rfl)
  · intro hm
    have hres := commandResult_mont (rd := rd) (rk := rk) hm
    have hexec := exec_of_result hres
    exact ⟨_, hexec, by simp, fun hne => reg_rk_of_exec_mont hne hexec rfl, retires_of_result hres, rfl, rfl, rfl⟩

/-- Settles O10: both registers hold the bit length of the source (R123). -/
theorem montBitLengthIsBitlen : Obligations.MontBitLengthIsBitlen := by
  unfold Obligations.MontBitLengthIsBitlen
  intro rd rk rs1 s t u hne hmont hidle hbitlen
  calc t.reg rk = bitLength (s.reg rs1) := reg_rk_of_exec_mont hne.symm hmont hidle
    _ = u.reg rk := (reg_of_exec_bitlen hbitlen).symm

end Sys2Proof.Machine
end

section
/-! MODINV and MODDEC (`spec/43_crt_modinv.md` R130, R131): what each writes where it completes. -/

namespace Sys2Proof.Machine

open Sys2Proof

section

variable {rd rs1 rs2 : Reg} {s : State}

/-- What MODINV writes when the inverse exists (R130). -/
theorem commandResult_modinv (hm : s.reg rs2 ≠ 0) (hg : Nat.gcd (s.reg rs1) (s.reg rs2) = 1) :
    commandResult (.modinv rd rs1 rs2) s = .ok { writes := [(rd, inv (s.reg rs1) (s.reg rs2))] } := by
  rw [commandResult, modinvValue_of_gcd_eq hm hg]; rfl

/-- What MODDEC writes for a modulus `p - 1` that is positive (R131). -/
theorem commandResult_moddec (hp : 2 ≤ s.reg rs2) :
    commandResult (.moddec rd rs1 rs2) s = .ok { writes := [(rd, s.reg rs1 % (s.reg rs2 - 1))] } := by
  rw [commandResult, moddecValue_of_two_le hp]; rfl

end

/-! ### the statements -/

/-- Settles O13: by the three ends of the pure result, the zero modulus, no inverse, and the inverse of R17. -/
theorem modinvWritesTheInverse : Obligations.ModinvWritesTheInverse := by
  unfold Obligations.ModinvWritesTheInverse
  refine ⟨fun w h => decode_of_mask (r := opcodeRows[4]) (List.getElem_mem _) h, fun rd rs1 rs2 s => ⟨?_, ?_, ?_⟩⟩
  · intro h0
    exact faults_of_result (by rw [commandResult, h0, modinvValue_zero]; rfl)
  · intro hm hg
    exact faults_of_result (by rw [commandResult, modinvValue_of_gcd_ne hm hg]; rfl)
  · intro hm hg
    have hres := commandResult_modinv (rd := rd) hm hg
    obtain ⟨hlt, hinv⟩ := inv_spec _ _ (Nat.pos_of_ne_zero hm) hg
    exact ⟨_, exec_of_result hres, by simpa using hlt, by simpa using hinv, retires_of_result hres, rfl, rfl, rfl⟩

/-- Settles O15: by the two ends of the pure result, `p` at most 1 and any other. -/
theorem moddecReducesModuloPMinusOne : Obligations.ModdecReducesModuloPMinusOne := by
  unfold Obligations.ModdecReducesModuloPMinusOne
  refine ⟨fun w h => decode_of_mask (r := opcodeRows[5]) (List.getElem_mem _) h, fun rd rs1 rs2 s => ⟨?_, ?_⟩⟩
  · intro hp
    exact faults_of_result (by rw [commandResult, moddecValue_of_le hp]; rfl)
  · intro hp
    have hres := commandResult_moddec (rd := rd) (rs1 := rs1) hp
    exact ⟨_, exec_of_result hres, by simp, retires_of_result hres, rfl, rfl, rfl⟩

end Sys2Proof.Machine
end

section
/-! A host program of commands none of which writes a source of another (`spec/30_encoding.md` R77): every command has
the result it has in the state the program begins in, so the program is settled there. -/

namespace Sys2Proof.Machine

open Sys2Proof

/-- The commands draw no random numbers, and none of them writes a register that one of them reads. -/
structure Independent (is : List Instr) : Prop where
  deterministic : ∀ i ∈ is, usesRandom i = false
  disjoint : ∀ i ∈ is, ∀ j ∈ is, List.Disjoint (destinations i) (sources j)

theorem Independent.tail {i : Instr} {is : List Instr} (h : Independent (i :: is)) : Independent is where
  deterministic j hj := h.deterministic j (List.mem_cons_of_mem _ hj)
  disjoint j hj k hk := h.disjoint j (List.mem_cons_of_mem _ hj) k (List.mem_cons_of_mem _ hk)

/-- The head's writes leave the result of every later command as it was. -/
theorem Independent.commandResult_eq {i j : Instr} {is : List Instr} (h : Independent (i :: is)) (hj : j ∈ is)
    {s t : State} {r : Result} (hr : commandResult i s = .ok r)
    (ht : ∀ q : Reg, t.reg q = (s.writeRegs r.writes).reg q) : commandResult j t = commandResult j s := by
  have hj' : j ∈ i :: is := List.mem_cons_of_mem _ hj
  refine commandResult_congr_sources (fun q hq => ?_) fun hg => absurd hg (by simp [h.deterministic j hj'])
  rw [ht, State.reg_writeRegs_of_not_mem]
  intro p hp he
  have hd : q ∈ destinations i := commandResult_writes hr ▸ he ▸ List.mem_map_of_mem hp
  exact h.disjoint i List.mem_cons_self j hj' hd hq

theorem State.writeRegs_append (s : State) (l l' : List (Reg × Nat)) :
    s.writeRegs (l ++ l') = (s.writeRegs l).writeRegs l' := by
  induction l generalizing s with
  | nil => rfl
  | cons p rest ih => exact ih _

/-- Where no command faults, the program ends in IDLE with the writes of all of them. -/
theorem runProgram_of_results {is : List Instr} {s : State} {results : List Result} (hind : Independent is)
    (hidle : s.execState = .idle) (hok : List.Forall₂ (fun i r => commandResult i s = .ok r) is results) :
    ∃ t, runProgram (is.map .command) s = .next t ∧ t.execState = .idle ∧
      (s.done = true ∨ is ≠ [] → t.done = true) ∧
      ∀ q : Reg, t.reg q = (s.writeRegs (results.flatMap Result.writes)).reg q := by
  induction is generalizing s results with
  | nil =>
    cases hok
    exact ⟨s, rfl, hidle, by simp, fun _ => rfl⟩
  | cons i is ih =>
    obtain ⟨r, rest, hr, hrest, rfl⟩ := List.forall₂_cons_left_iff.1 hok
    obtain ⟨c, hc, -⟩ | ⟨r', hr', u, hrun, hu, hdone, -, -, hreg⟩ := runProgram_command_cases hidle (decode_encode i)
    · cases hr.symm.trans hc
    · cases hr.symm.trans hr'
      have hrest' : List.Forall₂ (fun j r => commandResult j u = .ok r) is rest :=
        ((List.forall₂_and_left is rest).2 ⟨fun j hj => hind.commandResult_eq hj hr hreg, hrest⟩).imp
          fun _ _ ⟨heq, hres⟩ => heq.trans hres
      obtain ⟨t, ht, htidle, htdone, htreg⟩ := ih hind.tail hu hrest'
      refine ⟨t, (hrun _).trans ht, htidle, fun _ => htdone (.inl hdone), fun q => ?_⟩
      rw [htreg, List.flatMap_cons, State.writeRegs_append]
      exact reg_writeRegs_congr _ hreg q

/-- Where a command faults, the program ends in FAULTED with every register cleared. -/
theorem runProgram_of_fault {is : List Instr} {s : State} {i : Instr} {c : Cause} (hind : Independent is)
    (hidle : s.execState = .idle) (hi : i ∈ is) (hfault : commandResult i s = .error c) :
    ∃ t, runProgram (is.map .command) s = .next t ∧ t.execState = .faulted ∧ ∀ q : Reg, t.reg q = 0 := by
  induction is generalizing s with
  | nil => cases hi
  | cons j is ih =>
    obtain ⟨_, -, t, hrun, ht, -, hreg⟩ | ⟨r, hr, u, hrun, hu, -, -, -, hreg⟩ :=
      runProgram_command_cases hidle (decode_encode j)
    · exact ⟨t, hrun _, ht, hreg⟩
    · have hmem : i ∈ is := by
        rcases List.mem_cons.1 hi with rfl | hmem
        · cases hr.symm.trans hfault
        · exact hmem
      obtain ⟨t, ht, hend⟩ := ih hind.tail hu hmem ((hind.commandResult_eq hmem hr hreg).trans hfault)
      exact ⟨t, (hrun _).trans ht, hend⟩

end Sys2Proof.Machine
end

section
/-! The CRT sequence (`spec/43_crt_modinv.md` R132, R133): when none of its five commands faults, and what the seven
destinations then hold. -/

namespace Sys2Proof.Machine

open Sys2Proof

/-- A register that a list of writes to different registers names holds the value written to it. -/
theorem State.reg_writeRegs_of_mem {l : List (Reg × Nat)} {q : Reg} {v : Nat} (s : State)
    (hnodup : (l.map Prod.fst).Nodup) (h : (q, v) ∈ l) : (s.writeRegs l).reg q = v := by
  induction l generalizing s with
  | nil => cases h
  | cons p rest ih =>
    obtain ⟨hp, hrest⟩ := List.nodup_cons.1 hnodup
    rcases List.mem_cons.1 h with rfl | h
    · rw [State.writeRegs, State.reg_writeRegs_of_not_mem, State.reg_setReg_same]
      exact fun w hw he => hp (List.mem_map.2 ⟨w, hw, he⟩)
    · exact ih _ hrest h

section

variable {o : CrtOperands} {s : State}

/-- The seven registers CRT writes (R132). -/
def crtDestinations (o : CrtOperands) : List Reg := [o.rdp, o.rdq, o.rqi, o.rfp, o.rsp, o.rfq, o.rsq]

/-- The three registers CRT reads (R132). -/
def crtSources (o : CrtOperands) : List Reg := [o.rp, o.rq, o.rdd]

theorem crtDestinations_append_crtSources_nodup (h : o.wellFormed = true) :
    (crtDestinations o ++ crtSources o).Nodup :=
  of_decide_eq_true h

theorem crtSequence_independent (h : o.wellFormed = true) : Independent (crtSequence o) where
  deterministic := by simp [crtSequence, usesRandom]
  disjoint i hi j hj q hqi hqj := by
    have hd : ∀ i ∈ crtSequence o, destinations i ⊆ crtDestinations o := by
      simp [crtSequence, destinations, crtDestinations]
    have hs : ∀ j ∈ crtSequence o, sources j ⊆ crtSources o := by
      simp [crtSequence, sources, crtSources]
    exact List.disjoint_of_nodup_append (crtDestinations_append_crtSources_nodup h) (hd i hi hqi) (hs j hj hqj)

/-- `p` and `q` are at least 2, `q` has an inverse modulo `p`, and both Barrett factors fit (R111, R130, R131). -/
def CrtDefined (o : CrtOperands) (s : State) : Prop :=
  2 ≤ s.reg o.rp ∧ 2 ≤ s.reg o.rq ∧ Nat.gcd (s.reg o.rq) (s.reg o.rp) = 1 ∧
    2 ^ (2 * bitLength (s.reg o.rp)) / s.reg o.rp < 2 ^ Config.W ∧
    2 ^ (2 * bitLength (s.reg o.rq)) / s.reg o.rq < 2 ^ Config.W

/-- What the five commands write, each with the result it has in `s` (R132). -/
def crtResults (o : CrtOperands) (s : State) : List Result :=
  [ { writes := [(o.rdp, s.reg o.rdd % (s.reg o.rp - 1))] },
    { writes := [(o.rdq, s.reg o.rdd % (s.reg o.rq - 1))] },
    { writes := [(o.rqi, inv (s.reg o.rq) (s.reg o.rp))] },
    { writes := [(o.rsp, 2 * bitLength (s.reg o.rp)), (o.rfp, 2 ^ (2 * bitLength (s.reg o.rp)) / s.reg o.rp)] },
    { writes := [(o.rsq, 2 * bitLength (s.reg o.rq)), (o.rfq, 2 ^ (2 * bitLength (s.reg o.rq)) / s.reg o.rq)] } ]

theorem commandResults_crtSequence (h : CrtDefined o s) :
    List.Forall₂ (fun i r => commandResult i s = .ok r) (crtSequence o) (crtResults o s) := by
  obtain ⟨hp, hq, hgcd, hfp, hfq⟩ := h
  have hp0 : s.reg o.rp ≠ 0 := by omega
  have hq0 : s.reg o.rq ≠ 0 := by omega
  exact .cons (commandResult_moddec hp) <| .cons (commandResult_moddec hq) <|
    .cons (commandResult_modinv hp0 hgcd) <| .cons (commandResult_barrett hp0 hfp) <|
    .cons (commandResult_barrett hq0 hfq) .nil

/-- The condition is no stronger than it must be: a command that completes meets its part of it. -/
theorem exists_fault_of_not_crtDefined (h : ¬ CrtDefined o s) :
    ∃ i ∈ crtSequence o, ∃ c, commandResult i s = .error c := by
  by_contra hno
  have hok : ∀ i ∈ crtSequence o, ∃ r, commandResult i s = .ok r := by
    intro i hi
    cases hr : commandResult i s with
    | ok r => exact ⟨r, rfl⟩
    | error c => exact absurd ⟨i, hi, c, hr⟩ hno
  simp only [crtSequence, List.forall_mem_cons] at hok
  obtain ⟨⟨_, hdp⟩, ⟨_, hdq⟩, ⟨_, hqi⟩, ⟨_, hbp⟩, ⟨_, hbq⟩, -⟩ := hok
  obtain ⟨-, hfp, -⟩ := barrett_result hbp
  obtain ⟨-, hfq, -⟩ := barrett_result hbq
  exact h ⟨(moddec_result hdp).1, (moddec_result hdq).1, (modinv_result hqi).1, hfp, hfq⟩

/-- BARRETT writes its shift before its factor, so the order is not that of the operands. -/
theorem crtResults_writes_perm (o : CrtOperands) (s : State) :
    (((crtResults o s).flatMap Result.writes).map Prod.fst).Perm (crtDestinations o) :=
  ((List.Perm.swap o.rfp o.rsp _).trans (((List.Perm.swap o.rfq o.rsq []).cons _).cons _)).append_left
    [o.rdp, o.rdq, o.rqi]

theorem crtResults_writes_nodup (h : o.wellFormed = true) (s : State) :
    (((crtResults o s).flatMap Result.writes).map Prod.fst).Nodup :=
  (crtResults_writes_perm o s).nodup_iff.2 (List.nodup_append'.1 (crtDestinations_append_crtSources_nodup h)).1

/-- Every destination holds the value written to it, for the ten registers are different (R132). -/
theorem runProgram_crt_of_crtDefined (hwf : o.wellFormed = true) (hidle : s.execState = .idle)
    (hdef : CrtDefined o s) :
    ∃ t, runProgram ((crtSequence o).map .command) s = .next t ∧ t.succeeded = true ∧
      (∀ q v, (q, v) ∈ (crtResults o s).flatMap Result.writes → t.reg q = v) ∧
      ∀ q, q ∉ crtDestinations o → t.reg q = s.reg q := by
  obtain ⟨t, ht, htidle, htdone, hreg⟩ :=
    runProgram_of_results (crtSequence_independent hwf) hidle (commandResults_crtSequence hdef)
  have hdone : t.done = true := htdone (.inr (List.cons_ne_nil _ _))
  refine ⟨t, ht, by simp [State.succeeded, htidle, hdone], fun q v hw => ?_, fun q hq => ?_⟩
  · exact (hreg q).trans (State.reg_writeRegs_of_mem s (crtResults_writes_nodup hwf s) hw)
  · rw [hreg, State.reg_writeRegs_of_not_mem]
    exact fun w hw he => hq ((crtResults_writes_perm o s).mem_iff.1 (he ▸ List.mem_map_of_mem hw))

theorem runProgram_crt_of_not_crtDefined (hwf : o.wellFormed = true) (hidle : s.execState = .idle)
    (hdef : ¬ CrtDefined o s) :
    ∃ t, runProgram ((crtSequence o).map .command) s = .next t ∧ t.execState = .faulted ∧ ∀ q : Reg, t.reg q = 0 := by
  obtain ⟨i, hi, c, hfault⟩ := exists_fault_of_not_crtDefined hdef
  exact runProgram_of_fault (crtSequence_independent hwf) hidle hi hfault

end

/-- Settles O55: the commands are independent of each other, so the sequence delivers what each of them does in the
state it begins in, or faults where one of them does. -/
theorem crtDeliversTheCrtConstants : Obligations.CrtDeliversTheCrtConstants := by
  unfold Obligations.CrtDeliversTheCrtConstants
  intro o s hwf hidle
  by_cases hdef : CrtDefined o s
  · obtain ⟨t, ht, hsucc, hread, hframe⟩ := runProgram_crt_of_crtDefined hwf hidle hdef
    refine ⟨t, ht, fun hp _ hgcd _ _ => ?_, fun hn => absurd hdef hn⟩
    obtain ⟨hlt, hinv⟩ := inv_spec (s.reg o.rq) (s.reg o.rp) (by omega) hgcd
    have hqi : t.reg o.rqi = inv (s.reg o.rq) (s.reg o.rp) := hread _ _ (by simp [crtResults])
    have hqi_inverse : t.reg o.rqi * s.reg o.rq % s.reg o.rp = 1 := by
      rw [hqi, mul_comm, hinv, Nat.mod_eq_of_lt hp]
    refine ⟨hsucc, ?_, ?_, hqi ▸ hlt, hqi_inverse, ?_, ?_, ?_, ?_, hframe⟩
    all_goals exact hread _ _ (by simp [crtResults])
  · obtain ⟨t, ht, hend⟩ := runProgram_crt_of_not_crtDefined hwf hidle hdef
    exact ⟨t, ht, fun hp hq hgcd hfp hfq => absurd ⟨hp, hq, hgcd, hfp, hfq⟩ hdef, fun _ => hend⟩

end Sys2Proof.Machine
end

section
/-! LI and PHI (`spec/44_keypair_support.md` R150, R151), and the command words of KEYGEN (R154). -/

namespace Sys2Proof.Machine

open Sys2Proof

section

variable {rd rs1 rs2 : Reg} {s : State}

/-- What PHI writes when the product fits (R151). -/
theorem commandResult_phi (hp : s.reg rs1 ≠ 0) (hq : s.reg rs2 ≠ 0)
    (hfits : (s.reg rs1 - 1) * (s.reg rs2 - 1) < 2 ^ Config.W) :
    commandResult (.phi rd rs1 rs2) s = .ok { writes := [(rd, (s.reg rs1 - 1) * (s.reg rs2 - 1))] } := by
  rw [commandResult, phiValue_of_lt hp hq hfits]; rfl

end

/-! ### the statements -/

/-- Settles O7: LI has one end, and every 20-bit number fits a register. -/
theorem liLoadsTheImmediate : Obligations.LiLoadsTheImmediate := by
  unfold Obligations.LiLoadsTheImmediate
  refine ⟨fun w h => decode_of_mask (r := opcodeRows[0]) (List.getElem_mem _) h, fun rd imm20 s => ?_⟩
  have hres : commandResult (.li rd imm20) s = .ok { writes := [(rd, imm20.toNat)] } := rfl
  have hfits : imm20.toNat < 2 ^ Config.W := Config.lt_two_pow_W (imm20.isLt.trans (by decide))
  exact ⟨_, exec_of_result hres, by simp, by simpa using hfits, retires_of_result hres, rfl, rfl, rfl⟩

/-- Settles O16: by the three ends of the pure result, a zero source, the product that overflows and the one that
fits. -/
theorem phiMultipliesThePredecessors : Obligations.PhiMultipliesThePredecessors := by
  unfold Obligations.PhiMultipliesThePredecessors
  refine ⟨fun w h => decode_of_mask (r := opcodeRows[6]) (List.getElem_mem _) h, fun rd rs1 rs2 s => ⟨?_, ?_, ?_⟩⟩
  · intro h0
    exact faults_of_result (by rw [commandResult, phiValue_of_zero h0]; rfl)
  · intro hp hq hle
    exact faults_of_result (by rw [commandResult, phiValue_of_le hp hq hle]; rfl)
  · intro hp hq hfits
    have hres := commandResult_phi (rd := rd) hp hq hfits
    exact ⟨_, exec_of_result hres, by simp, retires_of_result hres, rfl, rfl, rfl⟩

/-- A length that LI's immediate holds is loaded by an LI (R154). -/
theorem keygenLoad_of_le {L : Nat} (hL : L ≤ 1048575) : keygenLoad L = .command (.li 0 (BitVec.ofNat 20 L)) :=
  if_pos hL

theorem keygenLoad_of_lt {L : Nat} (hL : 1048575 < L) : keygenLoad L = .hostwr 0 L :=
  if_neg (not_le.2 hL)

theorem toNat_imm20 {L : Nat} (hL : L ≤ 1048575) : (BitVec.ofNat 20 L).toNat = L := by
  rw [BitVec.toNat_ofNat, Nat.mod_eq_of_lt (by omega)]

/-- Settles O54: the eleven fixed words by encoding them; the first holds `L` in LI's immediate. -/
theorem keygenWords : Obligations.KeygenWords := by
  unfold Obligations.KeygenWords
  refine ⟨by decide, fun L hL => ⟨_, keygenLoad_of_le hL, ?_⟩⟩
  rw [encode, encodeI, toNat_imm20 hL]
  rfl

end Sys2Proof.Machine
end

section
/-! A host program keeps the engine's invariant (`spec/30_encoding.md` R77, `spec/70_reset_and_hazards.md` R206): what a
line makes the engine do are turns of steps, and every step keeps the invariant. -/

namespace Sys2Proof.Machine

open Sys2Proof

/-! ### the turns of a line -/

section

variable {s t : State}

/-- `s` with one more turn ahead of those to come (log entry 5). -/
def State.beforeTurn (s : State) (u : Turn) : State := { s with turns := u :: s.turns }

theorem step_beforeTurn_access (s : State) (a : BusAccess) :
    step (s.beforeTurn (.access a)) = .next (s.busAccess a) := rfl

theorem step_beforeTurn_engine (s : State) : step (s.beforeTurn .engine) = s.engineTurn := rfl

theorem engineInv_beforeTurn (h : EngineInv s) (u : Turn) : EngineInv (s.beforeTurn u) :=
  ⟨h.regs_fit, h.done_idle, h.faulted_code, h.no_fault_code, h.faulted_clear⟩

theorem engineInv_busAccess (h : EngineInv s) (a : BusAccess) : EngineInv (s.busAccess a) :=
  engineInvariantIsKept _ _ (engineInv_beforeTurn h _) (step_beforeTurn_access s a)

theorem engineInv_engineTurn (h : EngineInv s) (ht : s.engineTurn = .next t) : EngineInv t :=
  engineInvariantIsKept _ _ (engineInv_beforeTurn h _) ((step_beforeTurn_engine s).trans ht)

/-! ### lines and programs -/

theorem engineInv_hostWriteWords (h : EngineInv s) (r : Reg) (v n : Nat) : EngineInv (s.hostWriteWords r v n) := by
  induction n with
  | zero => exact h
  | succ n ih => exact engineInv_busAccess ih _

theorem engineInv_runLine {l : HostLine} (h : EngineInv s) (ht : runLine l s = .next t) : EngineInv t := by
  cases l with
  | command i =>
    rw [runLine] at ht
    split at ht
    · next u hu =>
      cases ht
      exact engineInv_busAccess (engineInv_engineTurn (engineInv_busAccess h _) hu) _
    · next hno => exact absurd ht (hno t)
  | hostwr r v =>
    cases ht
    exact engineInv_hostWriteWords h r v _
  | hostrd r =>
    cases ht
    exact engineInv_busAccess h _

/-- What a program's first line does to the run: it ends it, in FAULTED, or the other lines run. -/
theorem runProgram_cons_cases {l : HostLine} {rest : List HostLine} (ht : runProgram (l :: rest) s = .next t) :
    (runLine l s = .next t ∧ t.execState = .faulted) ∨
      ∃ u, runLine l s = .next u ∧ u.execState ≠ .faulted ∧ runProgram rest u = .next t := by
  rw [runProgram] at ht
  split at ht
  · next u hu =>
    split at ht
    · next hf =>
      cases ht
      exact .inl ⟨hu, hf⟩
    · next hf => exact .inr ⟨u, hu, hf, ht⟩
  · next hno => exact absurd ht (hno t)

theorem engineInv_runProgram {program : List HostLine} (h : EngineInv s) (ht : runProgram program s = .next t) :
    EngineInv t := by
  induction program generalizing s with
  | nil =>
    cases ht
    exact h
  | cons l rest ih =>
    obtain ⟨hl, -⟩ | ⟨u, hl, -, hrest⟩ := runProgram_cons_cases ht
    · exact engineInv_runLine h hl
    · exact ih (engineInv_runLine h hl) hrest

end

/-- Settles O58: the program keeps the invariant, which says what a faulted engine holds. -/
theorem faultedProgramLeavesNothing : Obligations.FaultedProgramLeavesNothing := by
  unfold Obligations.FaultedProgramLeavesNothing
  intro program s t hs hrun hf
  have ht := engineInv_runProgram hs hrun
  obtain ⟨hregs, hatt, hacc⟩ := ht.faulted_clear hf
  have hread (r : Reg) : t.hostRead r = some 0 :=
    hregs r ▸ hostRead_eq r t (by simp [hf]) (ht.regs_fit r)
  have hdone : t.done = false := Bool.eq_false_iff.2 fun hd => by simp [ht.done_idle hd] at hf
  exact ⟨fun r => ⟨hregs r, hread r⟩, hatt, hacc, hdone, ht.faulted_code hf⟩

end Sys2Proof.Machine
end

section
/-! Encryption and CRT decryption undo each other (`spec/44_keypair_support.md` R162): modulo each prime by Fermat's
little theorem, and then Garner's recombination of the two residues. -/

namespace Sys2Proof.Machine

open Sys2Proof

/-! ### modulo one prime -/

/-- Fermat's little theorem, for every base: the exponent 1 modulo `r - 1` is the exponent 1. -/
theorem pow_modEq_self {r a : Nat} (m : Nat) (hr : r.Prime) (ha : a % (r - 1) = 1) : m ^ a ≡ m [MOD r] := by
  obtain ⟨k, rfl⟩ : ∃ k, a = (r - 1) * k + 1 := by
    have := Nat.div_add_mod a (r - 1)
    exact ⟨a / (r - 1), by omega⟩
  by_cases hm : r ∣ m
  · have hzero : m ≡ 0 [MOD r] := (Nat.modEq_zero_iff_dvd).2 hm
    calc m ^ ((r - 1) * k + 1) ≡ 0 ^ ((r - 1) * k + 1) [MOD r] := hzero.pow _
      _ ≡ m [MOD r] := by rw [zero_pow (Nat.succ_ne_zero _)]; exact hzero.symm
  · have hcop : m.Coprime r := ((Nat.Prime.coprime_iff_not_dvd hr).2 hm).symm
    have hone : m ^ (r - 1) ≡ 1 [MOD r] := Nat.totient_prime hr ▸ Nat.ModEq.pow_totient hcop
    calc m ^ ((r - 1) * k + 1) = (m ^ (r - 1)) ^ k * m := by rw [pow_succ, pow_mul]
      _ ≡ 1 ^ k * m [MOD r] := (hone.pow k).mul_right m
      _ = m := by rw [one_pow, one_mul]

/-- Decryption modulo one of the primes, with `d` reduced modulo `r - 1`: `r = 2` is shut out, where the reduced
exponent is 0. -/
theorem decrypt_mod_prime {r n phi e d : Nat} (m : Nat) (hr : r.Prime) (hr2 : r ≠ 2) (hn : r ∣ n)
    (hphi : r - 1 ∣ phi) (hd : e * d % phi = 1) : (m ^ e % n) ^ (d % (r - 1)) % r = m % r := by
  have hr3 : 1 < r - 1 := by have := hr.two_le; omega
  have hexp : e * (d % (r - 1)) % (r - 1) = 1 := by
    rw [Nat.mul_mod_mod, ← Nat.mod_mod_of_dvd _ hphi, hd, Nat.mod_eq_of_lt hr3]
  calc (m ^ e % n) ^ (d % (r - 1)) ≡ (m ^ e) ^ (d % (r - 1)) [MOD r] := ((Nat.mod_modEq _ n).of_dvd hn).pow _
    _ = m ^ (e * (d % (r - 1))) := (pow_mul _ _ _).symm
    _ ≡ m [MOD r] := pow_modEq_self m hr hexp

/-! ### the recombination -/

/-- `subMod m1 m2 p` is the difference modulo `p`: with `m2` it makes `m1`. -/
theorem add_subMod_modEq {p : Nat} (m1 m2 : Nat) (hp : 0 < p) : m2 + subMod m1 m2 p ≡ m1 [MOD p] := by
  have hfill : m2 % p + (p - m2 % p) = p := Nat.add_sub_cancel' (Nat.mod_lt _ hp).le
  calc m2 + subMod m1 m2 p ≡ m2 % p + (m1 + (p - m2 % p)) [MOD p] :=
        (Nat.mod_modEq m2 p).symm.add (Nat.mod_modEq _ p)
    _ = m1 + p := by omega
    _ ≡ m1 [MOD p] := by simp [Nat.ModEq]

/-- Garner: `h = qInv·(m1 - m2) mod p` is the quotient of `m` by `q`. -/
theorem garner {p q qInv m : Nat} (hinv : qInv * q % p = 1) (hm : m < p * q) :
    m % q + qInv * subMod (m % p) (m % q) p % p * q = m := by
  have hp : 0 < p := Nat.pos_of_ne_zero fun h => by simp [h] at hm
  have hdiff : subMod (m % p) (m % q) p ≡ q * (m / q) [MOD p] := by
    refine Nat.ModEq.add_left_cancel' (m % q) ?_
    rw [Nat.mod_add_div]
    exact (add_subMod_modEq _ _ hp).trans (Nat.mod_modEq m p)
  have hone : qInv * q ≡ 1 [MOD p] := hinv ▸ (Nat.mod_modEq _ p).symm
  have hquot : qInv * subMod (m % p) (m % q) p % p = m / q := by
    apply Nat.mod_eq_of_modEq _ (Nat.div_lt_of_lt_mul (by rwa [mul_comm]))
    calc qInv * subMod (m % p) (m % q) p ≡ qInv * (q * (m / q)) [MOD p] := hdiff.mul_left qInv
      _ = qInv * q * (m / q) := (mul_assoc _ _ _).symm
      _ ≡ 1 * (m / q) [MOD p] := hone.mul_right _
      _ = m / q := one_mul _
  rw [hquot, Nat.mod_add_div']

/-- Settles O57: the two residues are those of the message, and Garner's recombination puts it together. -/
theorem keygenRecordsRoundTrip : Obligations.KeygenRecordsRoundTrip := by
  unfold Obligations.KeygenRecordsRoundTrip
  intro p q m pub priv hrec hp hq hq2 hm
  have hp2 : p ≠ 2 := by have := hq.two_le; have := hrec.larger; omega
  have hm1 := decrypt_mod_prime m hp hp2 (Dvd.intro q rfl) (Dvd.intro (q - 1) rfl) hrec.d_inverse
  have hm2 := decrypt_mod_prime m hq hq2 (Dvd.intro_left p rfl) (Dvd.intro_left (p - 1) rfl) hrec.d_inverse
  rw [PrivateKey.crtDecrypt, PublicKey.encrypt, hrec.e, hrec.public_n, hrec.p_eq, hrec.q_eq, hrec.dp, hrec.dq]
  simp only [hm1, hm2]
  exact garner hrec.qInv_inverse (hrec.public_n ▸ hm)

end Sys2Proof.Machine
end

section
/-! A host program cut into parts (`spec/30_encoding.md` R77): a part that does not end in FAULTED is followed by the
next, and a fault ends the whole. -/

namespace Sys2Proof.Machine

open Sys2Proof

/-- `program`, begun in `s`, ends in FAULTED with the code of `c` (R176, R204). -/
def ProgramFaults (program : List HostLine) (s : State) (c : Cause) : Prop :=
  ∃ t, runProgram program s = .next t ∧ t.execState = .faulted ∧ t.fcode = c.code

section

variable {s u : State} {l l' : List HostLine} {c : Cause}

theorem runProgram_append (hl : runProgram l s = .next u) (hu : u.execState = .idle) :
    runProgram (l ++ l') s = runProgram l' u := by
  induction l generalizing s with
  | nil =>
    cases hl
    rfl
  | cons x l ih =>
    obtain ⟨-, hf⟩ | ⟨v, hx, hv, hrest⟩ := runProgram_cons_cases hl
    · cases hu.symm.trans hf
    · rw [List.cons_append, runProgram, hx]
      exact (if_neg hv).trans (ih hrest)

theorem ProgramFaults.after (hl : runProgram l s = .next u) (hu : u.execState = .idle) (h : ProgramFaults l' u c) :
    ProgramFaults (l ++ l') s c := by
  rw [ProgramFaults, runProgram_append hl hu]
  exact h

end

section

variable {s : State} {i : Instr} {c : Cause} {r : Result}

theorem programFaults_command (hidle : s.execState = .idle) (h : commandResult i s = .error c)
    (rest : List HostLine) : ProgramFaults (.command i :: rest) s c := by
  obtain ⟨c', hc, t, hrun, hf, hcode, -⟩ | ⟨_, hr, -⟩ := runProgram_command_cases hidle (decode_encode i)
  · cases h.symm.trans hc
    exact ⟨t, hrun rest, hf, hcode⟩
  · cases h.symm.trans hr

theorem runProgram_command (hidle : s.execState = .idle) (h : commandResult i s = .ok r) :
    ∃ t, runProgram [.command i] s = .next t ∧ t.execState = .idle ∧ t.maxatt = s.maxatt ∧
      t.rng = r.rng.getD s.rng ∧ ∀ q : Reg, t.reg q = (s.writeRegs r.writes).reg q := by
  obtain ⟨_, hc, -⟩ | ⟨r', hr, t, hrun, ht, -, hend⟩ := runProgram_command_cases hidle (decode_encode i)
  · cases h.symm.trans hc
  · cases h.symm.trans hr
    exact ⟨t, hrun [], ht, hend⟩

/-- The first command that faults gives the program its code. -/
theorem programFaults_of_first_fault {pre post : List Instr} (hind : Independent (pre ++ i :: post))
    (hidle : s.execState = .idle) (hok : ∀ j ∈ pre, ∃ r, commandResult j s = .ok r)
    (hfault : commandResult i s = .error c) : ProgramFaults ((pre ++ i :: post).map .command) s c := by
  induction pre generalizing s with
  | nil => exact programFaults_command hidle hfault _
  | cons j pre ih =>
    obtain ⟨⟨r, hr⟩, hpre⟩ := List.forall_mem_cons.1 hok
    obtain ⟨u, hrun, hu, -, -, hreg⟩ := runProgram_command hidle hr
    have hsame : ∀ k ∈ pre ++ i :: post, commandResult k u = commandResult k s :=
      fun k hk => hind.commandResult_eq hk hr hreg
    refine ProgramFaults.after hrun hu (ih hind.tail hu (fun k hk => ?_) ?_)
    · rw [hsame k (List.mem_append_left _ hk)]
      exact hpre k hk
    · rw [hsame i (List.mem_append_right _ List.mem_cons_self)]
      exact hfault

end

/-- Without an inverse of `q` modulo `p`, CRT ends in its MODINV (R130, R132). -/
theorem programFaults_crt {o : CrtOperands} {s : State} (hwf : o.wellFormed = true) (hidle : s.execState = .idle)
    (hp : 2 ≤ s.reg o.rp) (hq : 2 ≤ s.reg o.rq) (hgcd : Nat.gcd (s.reg o.rq) (s.reg o.rp) ≠ 1) :
    ProgramFaults ((crtSequence o).map .command) s .arithmeticInvariantViolation := by
  have hp0 : s.reg o.rp ≠ 0 := by omega
  refine programFaults_of_first_fault (pre := [.moddec o.rdp o.rdd o.rp, .moddec o.rdq o.rdd o.rq])
    (crtSequence_independent hwf) hidle ?_ (by rw [commandResult, modinvValue_of_gcd_ne hp0 hgcd]; rfl)
  simp [commandResult_moddec hp, commandResult_moddec hq]

end Sys2Proof.Machine
end

section
/-! KEYGEN (`spec/44_keypair_support.md` R153 to R161), part by part: the length is loaded, PRIMEGEN draws the pair,
four commands derive what depends on the pair alone, MODINV the exponent `d`, CRT the rest. -/

namespace Sys2Proof.Machine

open Sys2Proof

/-! ### the parts -/

/-- Steps 3 to 6 of KEYGEN, none of which reads what another writes (R154). -/
def keygenConstants : List Instr := [.li 1 publicExponent, .bitlen 3 2, .mont 4 3 2, .phi 15 6 7]

/-- Steps 7 and 8 of KEYGEN: the exponent `d` and the CRT constants (R154). -/
def keygenExponents : List Instr := .modinv 5 1 15 :: crtSequence keygenCrt

theorem keygenSequence_eq (T : Nat) :
    keygenSequence T = [keygenLoad (T / 2)] ++ ([.command (.primegen 6 7 2 0)] ++
      (keygenConstants.map .command ++ keygenExponents.map .command)) := rfl

theorem keygenConstants_independent : Independent keygenConstants where
  deterministic := by simp [keygenConstants, usesRandom]
  disjoint := by simp [keygenConstants, destinations, sources]

/-! ### what the registers hold between the parts (R155) -/

/-- The registers of R155 that depend on the pair alone, in IDLE: after PRIMEGEN. -/
structure HoldsPair (p q : Nat) (s : State) : Prop where
  idle : s.execState = .idle
  x6 : s.reg 6 = p
  x7 : s.reg 7 = q
  x2 : s.reg 2 = p * q

/-- After PHI: the public exponent, the Montgomery constants and phi beside the pair. -/
structure HoldsConstants (p q : Nat) (s : State) : Prop extends HoldsPair p q s where
  x1 : s.reg 1 = 65537
  x3 : s.reg 3 = bitLength (p * q)
  x4 : s.reg 4 = 2 ^ (2 * bitLength (p * q)) % (p * q)
  x15 : s.reg 15 = (p - 1) * (q - 1)

/-- The sizes of a pair that let every command after PRIMEGEN but the two MODINV complete. -/
structure SizedPair (p q : Nat) : Prop where
  two_le_p : 2 ≤ p
  two_le_q : 2 ≤ q
  larger : q < p
  product : p * q < 2 ^ Config.W
  bits_p : bitLength p + 2 ≤ Config.W
  bits_q : bitLength q + 2 ≤ Config.W

theorem sizedPair_attempt {L : Nat} (g : RngState) (h3 : 3 ≤ L) (hL : 2 * L ≤ Config.W) :
    SizedPair (attemptP Config.drawPrime L g 1) (attemptQ Config.drawPrime L g 1) := by
  have hWmin := Config.W_min
  have hbp := bitLength_attemptP (k := 1) g (show 2 ≤ L by omega)
  have hbq := bitLength_attemptQ (k := 1) g h3
  have hbn := bitLength_mul (by rw [hbp]; omega) (by rw [hbq]; omega)
  have hdouble := double_lt_of_bitLength (p := attemptP Config.drawPrime L g 1)
    (q := attemptQ Config.drawPrime L g 1) (by omega)
  have hq : 2 ^ 1 ≤ attemptQ Config.drawPrime L g 1 := two_pow_le_of_lt_bitLength (by omega)
  exact ⟨by omega, hq, by omega, (bitLength_le_iff _ _).1 (by omega), by omega, by omega⟩

theorem SizedPair.one_lt_phi {p q : Nat} (h : SizedPair p q) : 1 < (p - 1) * (q - 1) := by
  have hq := h.two_le_q
  have hlarger := h.larger
  exact one_lt_mul_of_lt_of_le (by omega) (by omega)

theorem SizedPair.phi_lt {p q : Nat} (h : SizedPair p q) : (p - 1) * (q - 1) < 2 ^ Config.W :=
  (Nat.mul_le_mul (Nat.sub_le p 1) (Nat.sub_le q 1)).trans_lt h.product

/-- The registers of R155 that a later part leaves alone stay as they are. -/
theorem HoldsConstants.of_eq {p q : Nat} {s t : State} (h : HoldsConstants p q s) (hidle : t.execState = .idle)
    (hreg : ∀ r ∈ ([1, 2, 3, 4, 6, 7, 15] : List Reg), t.reg r = s.reg r) : HoldsConstants p q t := by
  simp only [List.forall_mem_cons] at hreg
  obtain ⟨h1, h2, h3, h4, h6, h7, h15, -⟩ := hreg
  exact ⟨⟨hidle, h6.trans h.x6, h7.trans h.x7, h2.trans h.x2⟩, h1.trans h.x1, h3.trans h.x3, h4.trans h.x4,
    h15.trans h.x15⟩

/-! ### part by part -/

section

variable {s : State} {L p q : Nat}

/-- Step 1: LI or HOSTWR leaves the length in `x0`. -/
theorem runProgram_keygenLoad (hs : EngineInv s) (hidle : s.execState = .idle) (hL : L < 2 ^ Config.W) :
    ∃ t, runProgram [keygenLoad L] s = .next t ∧ t.execState = .idle ∧ t.maxatt = s.maxatt ∧ t.rng = s.rng ∧
      t.reg 0 = L := by
  by_cases hle : L ≤ 1048575
  · obtain ⟨t, hrun, ht, hmaxatt, hrng, hreg⟩ := runProgram_command (i := .li 0 (BitVec.ofNat 20 L)) hidle rfl
    refine ⟨t, keygenLoad_of_le hle ▸ hrun, ht, hmaxatt, hrng, ?_⟩
    rw [hreg, State.writeRegs_cons, State.writeRegs_nil, State.reg_setReg_same, zextImm, toNat_imm20 hle]
  · obtain ⟨hw, -, hreg⟩ := hostWrite_eq hidle (hs.regs_fit 0) hL
    obtain ⟨-, hmaxatt, hrng, -⟩ := hostWriteWords_eq 0 L s hidle (Config.W / 32) le_rfl
    refine ⟨s.hostWrite 0 L, ?_, hw, hmaxatt, hrng, hreg⟩
    rw [keygenLoad_of_lt (not_le.1 hle)]
    exact if_neg (by simp [hw])

/-- Step 2, where the first attempt is made: it is accepted, and the pair is delivered. -/
theorem runProgram_keygenPrimegen (hidle : s.execState = .idle) (h3 : 3 ≤ s.reg 0) (hL : 2 * s.reg 0 ≤ Config.W)
    (hm : s.maxatt ≠ 0) :
    ∃ t, runProgram [.command (.primegen 6 7 2 0)] s = .next t ∧
      HoldsPair (attemptP Config.drawPrime (s.reg 0) s.rng 1) (attemptQ Config.drawPrime (s.reg 0) s.rng 1) t := by
  have hm1 : 1 ≤ s.maxatt.toNat := Nat.pos_of_ne_zero fun h => hm (BitVec.eq_of_toNat_eq h)
  have hpair := primeAttempts_of_first_accepted le_rfl hm1 h3 (attempt_accepted s.rng le_rfl h3)
    fun j h1 hj => absurd hj (not_lt.2 h1)
  obtain ⟨t, hrun, ht, -, -, hreg⟩ := runProgram_command hidle
    (commandResult_primegen_ok (rd := 6) (rk := 7) (rn := 2) hL hpair)
  obtain ⟨h6, h7, h2⟩ := reg_commit_primegenResult s 6 7 2 (attemptPair Config.drawPrime (s.reg 0) s.rng 1)
  exact ⟨t, hrun, ht, (hreg 6).trans h6, (hreg 7).trans (h7 (by decide)),
    (hreg 2).trans (h2 (by decide) (by decide))⟩

/-- Steps 3 to 6. -/
theorem runProgram_keygenConstants (hsize : SizedPair p q) (h : HoldsPair p q s) :
    ∃ t, runProgram (keygenConstants.map .command) s = .next t ∧ HoldsConstants p q t := by
  obtain ⟨hidle, hp, hq, hn⟩ := h
  have hp2 := hsize.two_le_p
  have hq2 := hsize.two_le_q
  have hp0 : s.reg 6 ≠ 0 := by omega
  have hq0 : s.reg 7 ≠ 0 := by omega
  have hn0 : s.reg 2 ≠ 0 := hn ▸ Nat.mul_ne_zero (by omega) (by omega)
  have hphi : (s.reg 6 - 1) * (s.reg 7 - 1) < 2 ^ Config.W := by rw [hp, hq]; exact hsize.phi_lt
  obtain ⟨t, hrun, ht, -, hreg⟩ := runProgram_of_results keygenConstants_independent hidle
    (.cons rfl <| .cons commandResult_bitlen <| .cons (commandResult_mont hn0) <|
      .cons (commandResult_phi hp0 hq0 hphi) .nil)
  refine ⟨t, hrun, ⟨ht, ?_, ?_, ?_⟩, ?_, ?_, ?_, ?_⟩
  all_goals simp [hreg, State.reg_setReg, hp, hq, hn, zextImm, publicExponent]

/-- Steps 7 and 8, without one of the two inverses: the MODINV that wants it faults. -/
theorem programFaults_keygenExponents (hsize : SizedPair p q) (h : HoldsConstants p q s)
    (hno : ¬ (Nat.gcd 65537 ((p - 1) * (q - 1)) = 1 ∧ Nat.gcd q p = 1)) :
    ProgramFaults (keygenExponents.map .command) s .arithmeticInvariantViolation := by
  have hphi0 : s.reg 15 ≠ 0 := by have := hsize.one_lt_phi; have := h.x15; omega
  by_cases hd : Nat.gcd (s.reg 1) (s.reg 15) = 1
  · obtain ⟨t, hrun, ht, -, -, hreg⟩ := runProgram_command h.idle (commandResult_modinv (rd := 5) hphi0 hd)
    have hp : t.reg 6 = p := by simpa [hreg, State.reg_setReg] using h.x6
    have hq : t.reg 7 = q := by simpa [hreg, State.reg_setReg] using h.x7
    refine ProgramFaults.after hrun ht (programFaults_crt (o := keygenCrt) (by decide) ht ?_ ?_ ?_)
    · exact hp ▸ hsize.two_le_p
    · exact hq ▸ hsize.two_le_q
    · rw [h.x1, h.x15] at hd
      exact fun hgcd => hno ⟨hd, by rwa [← hp, ← hq]⟩
  · exact programFaults_command h.idle (by rw [commandResult, modinvValue_of_gcd_ne hphi0 hd]; rfl) _

end

/-! ### the records -/

/-- The public record the host reads (R159). -/
def State.publicRecord (t : State) : PublicKey where
  e := t.reg 1
  n := t.reg 2
  montgomeryBitLength := t.reg 3
  montgomeryRr := t.reg 4
  blockSize := t.reg 3 / 8

/-- The record with `d`, as the host reads it (R159). -/
def State.privateRecord (t : State) : PrivateKey where
  d := t.reg 5
  n := t.reg 2
  p := t.reg 6
  q := t.reg 7
  dp := t.reg 8
  dq := t.reg 9
  qInvModP := t.reg 10
  barrettPShift := t.reg 11
  barrettPFactor := t.reg 12
  barrettQShift := t.reg 13
  barrettQFactor := t.reg 14

theorem readKeys_eq {t : State} (h : EngineInv t) (hidle : t.execState = .idle) :
    t.readKeys = some (t.publicRecord, t.privateRecord) := by
  have hread (r : Reg) : t.hostRead r = some (t.reg r) := hostRead_eq r t (by simp [hidle]) (h.regs_fit r)
  simp only [State.readKeys, hread]
  rfl

/-- Steps 7 and 8, with both inverses: the registers hold the two records. -/
theorem runProgram_keygenExponents {s : State} {p q : Nat} (hsize : SizedPair p q) (h : HoldsConstants p q s)
    (hd : Nat.gcd 65537 ((p - 1) * (q - 1)) = 1) (hgcd : Nat.gcd q p = 1) :
    ∃ t, runProgram (keygenExponents.map .command) s = .next t ∧ t.execState = .idle ∧
      RecordsOf p q t.publicRecord t.privateRecord := by
  have hphi := hsize.one_lt_phi
  have hphi0 : s.reg 15 ≠ 0 := by have := h.x15; omega
  obtain ⟨u, hrun, hu, -, -, hreg⟩ := runProgram_command h.idle
    (commandResult_modinv (rd := 5) (rs1 := 1) hphi0 (by rwa [h.x1, h.x15]))
  have hconst : HoldsConstants p q u := h.of_eq hu (by simp [hreg, State.reg_setReg])
  have hd5 : u.reg 5 = inv 65537 ((p - 1) * (q - 1)) := by simp [hreg, h.x1, h.x15]
  have hp0 : p ≠ 0 := by have := hsize.two_le_p; omega
  have hq0 : q ≠ 0 := by have := hsize.two_le_q; omega
  obtain ⟨t, ht, hcrt, -⟩ := crtDeliversTheCrtConstants keygenCrt u (by decide) hu
  simp only [keygenCrt, hconst.x6, hconst.x7] at hcrt
  obtain ⟨hsucc, hdp, hdq, hqi_lt, hqi, hsp, hfp, hsq, hfq, hframe⟩ := hcrt hsize.two_le_p hsize.two_le_q hgcd
    (barrettFactor_lt hp0 hsize.bits_p) (barrettFactor_lt hq0 hsize.bits_q)
  have hidle : t.execState = .idle := by simpa using (Bool.and_eq_true_iff.1 hsucc).1
  have hfinal : HoldsConstants p q t := hconst.of_eq hidle fun r hr => hframe r (by revert r; decide)
  have ht5 : t.reg 5 = inv 65537 ((p - 1) * (q - 1)) := (hframe 5 (by decide)).trans hd5
  obtain ⟨hd_range, hd_inverse⟩ := inv_spec 65537 ((p - 1) * (q - 1)) (by omega) hd
  rw [← ht5] at hd_range hd_inverse
  refine ⟨t, (runProgram_append hrun hu).trans ht, hidle, ?_⟩
  exact
    { e := hfinal.x1, public_n := hfinal.x2, montgomery_bitLength := hfinal.x3, montgomery_rr := hfinal.x4
      blockSize := congrArg (· / 8) hfinal.x3
      d_inverse := hd_inverse.trans (Nat.mod_eq_of_lt hphi), d_range := hd_range
      private_n := hfinal.x2, p_eq := hfinal.x6, q_eq := hfinal.x7, larger := hsize.larger
      dp := hdp.trans (by rw [← hframe 5 (by decide)]; rfl), dq := hdq.trans (by rw [← hframe 5 (by decide)]; rfl)
      qInv_inverse := hqi, qInv_range := hqi_lt
      barrettP_shift := hsp, barrettP_factor := hfp, barrettQ_shift := hsq, barrettQ_factor := hfq }

/-! ### the whole -/

section

variable {T : Nat} {s t : State} {c : Cause}

theorem keygen_of_programFaults (h : ProgramFaults (keygenSequence T) s c) : keygen T s = .error c.code := by
  obtain ⟨t, hrun, hf, hcode⟩ := h
  rw [keygen, hrun, ← hcode]
  exact if_pos hf

theorem keygen_of_idle (hs : EngineInv s) (hrun : runProgram (keygenSequence T) s = .next t)
    (ht : t.execState = .idle) : keygen T s = .ok (some (t.publicRecord, t.privateRecord)) := by
  rw [keygen, hrun, ← readKeys_eq (engineInv_runProgram hs hrun) ht]
  exact if_neg (by simp [ht])

section

variable (hs : EngineInv s) (hidle : s.execState = .idle) (hT : T / 2 < 2 ^ Config.W)

include hs hidle hT

/-- PRIMEGEN's fault is KEYGEN's. -/
theorem keygen_of_primePair_error
    (h : primePair Config.W s.maxatt.toNat Config.drawPrime (T / 2) s.rng = .error c) :
    keygen T s = .error c.code := by
  obtain ⟨u, hload, hu, hmaxatt, hrng, hlen⟩ := runProgram_keygenLoad hs hidle hT
  exact keygen_of_programFaults
    (ProgramFaults.after hload hu (programFaults_command hu (by rw [commandResult, hlen, hmaxatt, hrng, h]; rfl) _))

/-- Where the first attempt is made, KEYGEN is what its steps 7 and 8 make of the pair. -/
theorem runProgram_keygen_of_pair (h3 : 3 ≤ T / 2) (hL : 2 * (T / 2) ≤ Config.W) (hm : s.maxatt ≠ 0) :
    ∃ u, HoldsConstants (attemptP Config.drawPrime (T / 2) s.rng 1) (attemptQ Config.drawPrime (T / 2) s.rng 1) u ∧
      runProgram (keygenSequence T) s = runProgram (keygenExponents.map .command) u := by
  obtain ⟨u, hload, hu, hmaxatt, hrng, hlen⟩ := runProgram_keygenLoad hs hidle hT
  obtain ⟨v, hgen, hpair⟩ := runProgram_keygenPrimegen hu (by rwa [hlen]) (by rwa [hlen]) (by rwa [hmaxatt])
  rw [hlen, hrng] at hpair
  obtain ⟨w, hconst, hw⟩ := runProgram_keygenConstants (sizedPair_attempt _ h3 hL) hpair
  refine ⟨w, hw, ?_⟩
  rw [keygenSequence_eq, runProgram_append hload hu, runProgram_append hgen hpair.idle,
    runProgram_append hconst hw.idle]

end

end

/-- Settles O56: PRIMEGEN's faults by its own table; for the pair of the first attempt only the two MODINV can fault,
and where neither does the registers hold the records. -/
theorem keygenDeliversBothRecordsOrAFault : Obligations.KeygenDeliversBothRecordsOrAFault := by
  unfold Obligations.KeygenDeliversBothRecordsOrAFault
  intro T s hs hidle hT
  have hWmin := Config.W_min
  refine ⟨fun hL => ?_, fun hL => ?_, fun h3 hL hm => ?_, ?_⟩
  · exact keygen_of_primePair_error hs hidle hT (primePair_of_lt hL)
  · refine keygen_of_primePair_error (c := .invalidInput) hs hidle hT ?_
    rw [primePair_of_le (by omega), primeAttempts_of_rest_le_one (by omega)]
  · refine keygen_of_primePair_error (c := .primeGenerationExhaustion) hs hidle hT ?_
    rw [primePair_of_le hL, primeAttempts_of_maxatt_lt (by omega) (by simp [hm])]
  · rintro h3 hL hm p q rfl rfl
    have hsize := sizedPair_attempt s.rng h3 hL
    obtain ⟨u, hu, hrun⟩ := runProgram_keygen_of_pair hs hidle hT h3 hL hm
    refine ⟨prp_attemptP s.rng (by omega), prp_attemptQ s.rng h3, fun hno => ?_, fun hd hgcd => ?_⟩
    · refine keygen_of_programFaults (c := .arithmeticInvariantViolation) ?_
      rw [ProgramFaults, hrun]
      exact programFaults_keygenExponents hsize hu hno
    · obtain ⟨t, ht, htidle, hrec⟩ := runProgram_keygenExponents hsize hu hd hgcd
      exact ⟨_, _, keygen_of_idle hs (hrun.trans ht) htidle, hrec⟩

end Sys2Proof.Machine
end

section
/-! The fault a command raises (`spec/60_exceptions.md` R171, R178): the causes each pure result can answer, and the one
an illegal word raises. -/

namespace Sys2Proof.Machine

open Sys2Proof

/-! ### the causes of each pure result -/

theorem error_of_map_eq_error {α β : Type} {e : Except Cause α} {f : α → β} {c : Cause} (h : e.map f = .error c) :
    e = .error c := by
  cases e with
  | ok a => cases h
  | error c' => cases h; rfl

section

variable {c : Cause} {W : Nat}

theorem montgomeryConstants_error {m : Nat} (h : montgomeryConstants m = .error c) : c = .badOperand := by
  unfold montgomeryConstants at h
  split at h
  · cases h; rfl
  · cases h

theorem barrettConstants_error {m : Nat} (h : barrettConstants W m = .error c) :
    c = .badOperand ∨ c = .rangeOverflow := by
  unfold barrettConstants at h
  split at h
  · cases h; exact .inl rfl
  · split at h
    · cases h
    · cases h; exact .inr rfl

theorem modinvValue_error {a m : Nat} (h : modinvValue a m = .error c) :
    c = .badOperand ∨ c = .arithmeticInvariantViolation := by
  unfold modinvValue at h
  split at h
  · cases h; exact .inl rfl
  · split at h
    · cases h; exact .inr rfl
    · cases h

theorem moddecValue_error {d p : Nat} (h : moddecValue d p = .error c) : c = .badOperand := by
  unfold moddecValue at h
  split at h
  · cases h; rfl
  · cases h

theorem phiValue_error {p q : Nat} (h : phiValue W p q = .error c) : c = .badOperand ∨ c = .rangeOverflow := by
  unfold phiValue at h
  split at h
  · cases h; exact .inl rfl
  · split at h
    · cases h
    · cases h; exact .inr rfl

theorem fermatVerdict_error {p q : Nat} (h : fermatVerdict W p q = .error c) : c = .rangeOverflow := by
  unfold fermatVerdict at h
  split at h
  · cases h
  · cases h; rfl

theorem primePair_error {maxatt L : Nat} {draw : Nat → RngState → Nat × RngState} {g : RngState}
    (h : primePair W maxatt draw L g = .error c) :
    c = .rangeOverflow ∨ c = .invalidInput ∨ c = .primeGenerationExhaustion := by
  unfold primePair at h
  split at h
  · cases h; exact .inl rfl
  · exact .inr (primeAttempts_error h)

end

/-! ### the causes of each command -/

/-- The table of causes (R171), command by command. -/
def faultCauses : Instr → List Cause
  | .li _ _ => []
  | .bitlen _ _ => []
  | .mont _ _ _ => [.badOperand]
  | .barrett _ _ _ => [.badOperand, .rangeOverflow]
  | .modinv _ _ _ => [.badOperand, .arithmeticInvariantViolation]
  | .moddec _ _ _ => [.badOperand]
  | .phi _ _ _ => [.badOperand, .rangeOverflow]
  | .fermat _ _ _ _ => [.rangeOverflow]
  | .primegen _ _ _ _ => [.rangeOverflow, .invalidInput, .primeGenerationExhaustion]

theorem mem_faultCauses_of_result {i : Instr} {s : State} {c : Cause} (h : commandResult i s = .error c) :
    c ∈ faultCauses i := by
  cases i with
  | li rd imm20 => cases h
  | bitlen rd rs1 => cases h
  | mont rd rk rs1 => simpa [faultCauses] using montgomeryConstants_error (error_of_map_eq_error h)
  | barrett rd rk rs1 => simpa [faultCauses] using barrettConstants_error (error_of_map_eq_error h)
  | modinv rd rs1 rs2 => simpa [faultCauses] using modinvValue_error (error_of_map_eq_error h)
  | moddec rd rs1 rs2 => simpa [faultCauses] using moddecValue_error (error_of_map_eq_error h)
  | phi rd rs1 rs2 => simpa [faultCauses] using phiValue_error (error_of_map_eq_error h)
  | fermat rd rk rs1 rs2 => simpa [faultCauses] using fermatVerdict_error (error_of_map_eq_error h)
  | primegen rd rk rn rs1 => simpa [faultCauses] using primePair_error (error_of_map_eq_error h)

/-! ### the statements -/

/-- Settles O23: a command that ends in FAULTED entered the fault its pure result raised, one of the table of causes;
the codes listed are the codes of those causes. -/
theorem eachCommandRecordsOnlyItsFaultCodes : Obligations.EachCommandRecordsOnlyItsFaultCodes := by
  unfold Obligations.EachCommandRecordsOnlyItsFaultCodes
  intro i s t h hf
  rcases exec_cases h with ⟨r, -, rfl⟩ | ⟨c, hc, rfl⟩
  · simp at hf
  · have hcode : c.code.toNat ∈ (faultCauses i).map fun c' => c'.code.toNat :=
      List.mem_map_of_mem (mem_faultCauses_of_result hc)
    cases i <;> exact hcode

/-- Settles O22: the engine's turn is Complete, and Complete of a word that decodes to no command is the fault entry. -/
theorem illegalWordRaisesIllegalCommand : Obligations.IllegalWordRaisesIllegalCommand := by
  unfold Obligations.IllegalWordRaisesIllegalCommand
  intro s hb he hillegal
  cases hd : decode s.cmd with
  | ok i => exact absurd hd (hillegal i)
  | error e =>
    have hstep : step s = .next (s.dropTurn.faultEntry .illegalCommand) := by
      rw [step_of_busy hb he, complete_of_illegal (e := e) (by simpa using hd)]
    exact ⟨_, hstep, faultEntered_faultEntry _ _, rfl⟩

end Sys2Proof.Machine
end

section
/-! What the host can tell of a faulted engine (`spec/60_exceptions.md` R176, `spec/70_reset_and_hazards.md` R206): the
answer to an access is a function of the components the window shows, and the fault entry clears or fixes each of
them. -/

namespace Sys2Proof.Machine

open Sys2Proof

/-- The components the window shows (R26 to R35, R54) are the same in `s` and `t`: all of R38 but `rng` (R36). -/
structure SameVisible (s t : State) : Prop where
  x : t.x = s.x
  execState : t.execState = s.execState
  done : t.done = s.done
  acc : t.acc = s.acc
  fcode : t.fcode = s.fcode
  cmd : t.cmd = s.cmd
  maxatt : t.maxatt = s.maxatt
  att : t.att = s.att

/-! ### the answer to an access -/

section

variable {s t : State} (h : SameVisible s t)

include h

theorem statusWord_congr : t.statusWord = s.statusWord := by
  simp only [State.statusWord, h.fcode, h.acc, h.execState, h.done]

theorem readTarget_congr (W : Nat) (g : Target) : t.readTarget W g = s.readTarget W g := by
  cases g with
  | id => rfl
  | param => rfl
  | ctrl => rfl
  | reserved => rfl
  | status => exact congrArg some (statusWord_congr h)
  | cmd => exact congrArg some h.cmd
  | maxatt => exact congrArg some h.maxatt
  | att => exact congrArg some h.att
  | regWord i j => simp only [State.readTarget, State.reg, h.x]

theorem busRead_congr (W off : Nat) : t.busRead W off = s.busRead W off := by
  simp only [State.busRead, h.execState, readTarget_congr h]

/-- The answer to a write depends on STATE alone (R57, R58). -/
theorem response_busWrite_congr (W off : Nat) (v : Word) :
    (t.busWrite W off v).response = (s.busWrite W off v).response := by
  unfold State.busWrite
  cases targetAt W off with
  | none => rfl
  | some g =>
    rw [h.execState]
    simp only [apply_ite State.response, State.response_respond]

/-- The answer to an access is a function of what the window shows (R52, R53, R57). -/
theorem response_busAccess_congr (a : BusAccess) : (t.busAccess a).response = (s.busAccess a).response := by
  unfold State.busAccess State.accessAt
  cases a with
  | read addr => simp only [busRead_congr h, apply_ite State.response, State.response_respond]
  | write addr v => simp only [response_busWrite_congr h, apply_ite State.response, State.response_respond]
  | odd width addr => simp only [apply_ite State.response, State.response_respond]

end

/-! ### the fault entry -/

/-- Fault entry leaves nothing to be seen but its code and the words CMD and MAXATT (R176). -/
theorem sameVisible_faultEntry {s s' : State} {c c' : Cause} (hcmd : s'.cmd = s.cmd) (hmaxatt : s'.maxatt = s.maxatt)
    (hcode : c'.code = c.code) : SameVisible (s.faultEntry c) (s'.faultEntry c') where
  x := rfl
  execState := rfl
  done := rfl
  acc := rfl
  fcode := hcode
  cmd := hcmd
  maxatt := hmaxatt
  att := rfl

/-- Complete that ends in FAULTED is a fault entry (R31). -/
theorem faultEntry_of_complete_faulted {s t : State} (h : s.complete = .next t) (hf : t.execState = .faulted) :
    ∃ c, t = s.faultEntry c := by
  rcases complete_cases h with ⟨i, r, -, -, rfl⟩ | hc
  · simp at hf
  · exact hc

/-- Settles O24: both runs end in a fault entry, after which the two engines look the same. -/
theorem faultedEngineRevealsNothing : Obligations.FaultedEngineRevealsNothing := by
  unfold Obligations.FaultedEngineRevealsNothing
  intro s s' t t' hcmd hmaxatt ht ht' hf hf' hcode a
  obtain ⟨c, rfl⟩ := faultEntry_of_complete_faulted ht hf
  obtain ⟨c', rfl⟩ := faultEntry_of_complete_faulted ht' hf'
  exact response_busAccess_congr (sameVisible_faultEntry hcmd hmaxatt hcode) a

end Sys2Proof.Machine
end

section
/-! Reset and progress (`spec/70_reset_and_hazards.md` R200, R201, R208): the first reset is a reset as any other, every
step answers, and in BUSY each step ends the period or uses up one of the turns to come. -/

namespace Sys2Proof.Machine

open Sys2Proof

/-! ### what a reset leaves -/

/-- The first reset is the transition every later one is, from a state that has drawn no seed (R201, R202). -/
theorem exists_resetEngine_eq_reset : ∃ s : State, s.resetEngine = State.reset :=
  ⟨{ State.reset with seedsDrawn := 0 }, rfl⟩

@[simp] theorem State.statusWord_resetEngine (s : State) : s.resetEngine.statusWord = 0 := by
  simp only [State.statusWord, State.fcode_resetEngine, State.acc_resetEngine, State.execState_resetEngine,
    State.done_resetEngine]
  decide

@[simp] theorem wordField_zero (j : Nat) : wordField 0 j = 0 := by simp [wordField_eq]

/-- The host's write of 1 to CTRL, whatever STATE is (R32, R58, R200). -/
theorem busAccess_write_ctrl_one (s : State) :
    s.busAccess (.write (Config.base + 0x00C) 1) = s.resetEngine.respond .ok :=
  (ctrlWrites s).1

/-- Settles O27: the first reset is a reset, and a reset establishes the invariant. -/
theorem engineInvariantHoldsAtReset : Obligations.EngineInvariantHoldsAtReset := by
  unfold Obligations.EngineInvariantHoldsAtReset
  obtain ⟨s, hs⟩ := exists_resetEngine_eq_reset
  exact hs ▸ engineInv_resetEngine s

/-- Settles O1: IDLE admits each of the reads, and what they deliver is the stated state. -/
theorem resetLeavesTheStatedState : Obligations.ResetLeavesTheStatedState := by
  unfold Obligations.ResetLeavesTheStatedState
  intro t ht
  obtain ⟨s, rfl⟩ : ∃ s : State, t = s.resetEngine := by
    rcases ht with rfl | h
    · exact exists_resetEngine_eq_reset.imp fun _ => Eq.symm
    · exact h
  refine ⟨State.reg_resetEngine s, rfl, rfl, rfl, rfl, rfl, rfl, rfl, ⟨_, rfl⟩, ?_, ?_, ?_, ?_, ?_, ?_, ?_⟩
  · exact busRead_of_target (t := .status) rfl rfl rfl (by simp [State.readTarget])
  · exact busRead_of_target (t := .cmd) rfl rfl rfl rfl
  · exact busRead_of_target (t := .att) rfl rfl rfl rfl
  · exact busRead_of_target (t := .maxatt) rfl rfl rfl rfl
  · exact busRead_of_target (t := .id) rfl rfl rfl rfl
  · exact busRead_of_target (t := .param) rfl rfl rfl rfl
  · intro r j hj
    rw [busRead_regWord (by simp) hj, State.reg_resetEngine, wordField_zero]
    rfl

/-- Settles O2: both turns are the one reset transition, and neither looks at STATE. -/
theorem resetHasTwoCausesInEveryState : Obligations.ResetHasTwoCausesInEveryState := by
  unfold Obligations.ResetHasTwoCausesInEveryState
  intro s
  refine ⟨step_of_reset, fun ha => ?_⟩
  rw [step_of_access ha, busAccess_write_ctrl_one]

/-! ### every step answers -/

theorem engineTurn_eq_next (s : State) : ∃ t, s.engineTurn = .next t := by
  by_cases hb : s.execState = .busy
  · rw [engineTurn_of_busy hb]; exact complete_eq_next s
  · exact ⟨s, engineTurn_of_not_busy hb⟩

/-- Settles O5: the engine's turn, an access and a reset each answer a next state. -/
theorem everyStepAnswersANextState : Obligations.EveryStepAnswersANextState := by
  unfold Obligations.EveryStepAnswersANextState
  intro s
  rcases turn_cases s with he | ⟨a, ha⟩ | hr
  · rw [step_of_engineNext he]; exact engineTurn_eq_next _
  · exact ⟨_, step_of_access ha⟩
  · exact ⟨_, step_of_reset hr⟩

/-! ### every BUSY period ends -/

section

variable {s : State}

theorem engineNext_of_turns_nil (h : s.turns = []) : engineNext s := .inl (by rw [h]; rfl)

/-- On the engine's turn a BUSY period ends (R31). -/
theorem step_ends_busy (hb : s.execState = .busy) (he : engineNext s) :
    ∃ t, step s = .next t ∧ t.execState ≠ .busy := by
  obtain ⟨t, ht, ⟨hidle, -⟩ | ⟨c, hc⟩⟩ := completeEndsIdleOrFaulted s hb he
  · exact ⟨t, ht, by simp [hidle]⟩
  · exact ⟨t, ht, by simp [hc.faulted]⟩

/-- In BUSY a step ends the period, or it answers an access and one turn less is to come (R31, R62, R200). -/
theorem step_of_busy_cases (hb : s.execState = .busy) :
    ∃ t, step s = .next t ∧ (t.execState ≠ .busy ∨ t.execState = .busy ∧ t.turns = s.turns.tail) := by
  rcases turn_cases s with he | ⟨a, ha⟩ | hr
  · obtain ⟨t, ht, hne⟩ := step_ends_busy hb he
    exact ⟨t, ht, .inl hne⟩
  · refine ⟨_, step_of_access ha, ?_⟩
    by_cases hw : isResetWrite a
    · obtain rfl := hw
      exact .inl (by rw [controlAddr, busAccess_write_ctrl_one]; simp)
    · obtain ⟨r, hr⟩ := busAccess_of_busy (s := s.dropTurn) hb hw
      exact .inr (by rw [hr]; exact ⟨hb, rfl⟩)
  · exact ⟨_, step_of_reset hr, .inl (by simp)⟩

end

/-- Settles O6, by induction on the turns to come: each step ends the period or uses one up, and with none left the
engine has its turn. -/
theorem everyBusyPeriodEnds : Obligations.EveryBusyPeriodEnds := by
  unfold Obligations.EveryBusyPeriodEnds
  intro s hb
  generalize hl : s.turns = l
  induction l generalizing s with
  | nil =>
    obtain ⟨t, ht, hne⟩ := step_ends_busy hb (engineNext_of_turns_nil hl)
    exact ⟨1, by simp, t, by rw [run_succ ht, run_zero], hne⟩
  | cons u rest ih =>
    obtain ⟨t, ht, hne | ⟨hbt, hturns⟩⟩ := step_of_busy_cases hb
    · exact ⟨1, by simp, t, by rw [run_succ ht, run_zero], hne⟩
    · obtain ⟨k, hk, t', hrun, hne⟩ := ih t hbt (by rw [hturns, hl, List.tail_cons])
      exact ⟨k + 1, by simpa using hk, t', by rw [run_succ ht, hrun], hne⟩

end Sys2Proof.Machine
end
